-- ==== Sys2Proof/Word.lean ====
section
/-! DEFINITION. The words of the block: bytes, luma values, 40-bit command and response words
(30_encoding.md R61, R66; 00_scope.md R9). -/

namespace Sys2Proof

/-- One byte of the framebuffer, of a command parameter or of a payload. -/
abbrev Byte := BitVec 8

/-- A 4-bit grayscale value, 0 (darkest) to 15 (brightest); 00_scope.md R19. -/
abbrev Luma := BitVec 4

/-- A C40 command word or an R40 response word; 30_encoding.md R61, R66. -/
abbrev Word40 := BitVec 40

end Sys2Proof
end

