-- ==== Sys2Proof/Machine/State.lean ====
section
/-! DEFINITION. The state of the block: the framebuffer and the dirty rectangle (10_state.md R20), and
beside them the contents of its three ports (30_encoding.md R60), which the step reads and extends. -/

namespace Sys2Proof.Machine

/-- Memory as listed cells: indices strictly rising, no cell that reads as an unlisted index does. -/
abbrev Memory := List Host.Cell

/-- The four bound registers CMIN, CMAX, RMIN, RMAX, 8 bits each (R25). They exist only while the
rectangle is present (R24), so they are a value of their own. -/
structure Rect where
  cmin : Byte
  cmax : Byte
  rmin : Byte
  rmax : Byte
  deriving DecidableEq, Repr

/-- What the host can do while the block is idle (R18): present a command word, or assert reset (R170). -/
inductive HostInput where
  | command (w : Word40)
  | reset
  deriving DecidableEq, Repr

/-- The answer of a transport transaction (R14, R68). -/
inductive Answer where
  | ok
  | err
  deriving DecidableEq, Repr

/-- The two kinds of transport transaction (R68): `Tx(CMD, op, params)` (R69), `Tx(DATA, bytes)` (R71). -/
inductive Request where
  | cmd (op : Byte) (params : List Byte)
  | data (bytes : List Byte)
  deriving DecidableEq, Repr

/-- One recorded transaction and the answer it got (R130). -/
structure Transaction where
  request : Request
  answer : Answer
  deriving DecidableEq, Repr

/-- The response statuses (R66). -/
inductive Status where
  | ok
  | busError
  | illegal
  deriving DecidableEq, Repr

/-- The state. `fb` and `dr` are the block's own (R20); the other fields are the model's, they hold
what stands on the ports. -/
structure State where
  /-- FB, the framebuffer (R21). -/
  fb : Memory
  /-- DR, the dirty rectangle: `none` is DV = 0 (R24, R25). -/
  dr : Option Rect
  /-- What the host will still do, next first. DESIGN CHOICE, log 1. -/
  inputs : List HostInput
  /-- The word standing on the internal tracker port (R72). DESIGN CHOICE, log 2. -/
  trackerIn : Option Word40
  /-- The transport's next answers; after them the free value answers. DESIGN CHOICE, log 3. -/
  answers : List Answer
  /-- The transport never returns once `answers` is used up (R186, U16). DESIGN CHOICE, log 4. -/
  silent : Bool
  /-- How many free answers have been drawn: the counter of the free value. DESIGN CHOICE, log 3. -/
  draws : Nat
  /-- The response words produced, oldest first (R66). DESIGN CHOICE, log 5. -/
  responses : List Word40
  /-- The transactions issued, oldest first (R130). DESIGN CHOICE, log 5. -/
  trace : List Transaction
  deriving DecidableEq, Repr

/-- Why the machine stops. -/
inductive Fault where
  /-- Raised by FLUSHF and FLUSHC when the transport never returns from a call: the block is held for
  ever (R186, U16 "stuck"), log 4. Safe: the model stops where the hardware never goes on. -/
  | transportNeverReturns
  /-- Raised by FLUSHC when the bound registers hold values R25 does not allow, which no operation
  leaves (R105), log 14. Safe: the model stops. -/
  | illegalRectangle
  deriving DecidableEq, Repr

/-- Why the machine has no meaning for an instruction. -/
inductive Refusal where
  /-- Raised by `exec`'s arm of an instruction that has no meaning yet; none in this model. Safe. -/
  | notModelled (mnemonic : String)
  /-- Raised by TOUCH outside its precondition InBounds(x, y) (R110, U13 "refuse"), log 7. Safe: the
  hardware never asks it. -/
  | touchOutOfBounds
  /-- Raised by the step for a word on the tracker port that is neither TOUCH nor TRKRST: never driven
  (R72, R74), log 8. Safe: the hardware never asks it. -/
  | undrivenTrackerWord
  deriving DecidableEq, Repr

/-- The state after reset (R37, R170): every byte of FB 0x00, nothing dirty. The ports are empty. -/
def State.reset : State where
  fb := []
  dr := none
  inputs := []
  trackerIn := none
  answers := []
  silent := false
  draws := 0
  responses := []
  trace := []

end Sys2Proof.Machine
end

