-- ==== Sys2Proof/Machine/Flags.lean ====
section
/-! DEFINITION. The one status flag DV (10_state.md R33) and the status code of a response word
(30_encoding.md R66). The block computes no other flag (R33). -/

namespace Sys2Proof.Machine

/-- DV: 1 if the rectangle is present, 0 if absent (R25). -/
def State.dv (s : State) : BitVec 1 :=
  match s.dr with
  | some _ => 1
  | none => 0

/-- The `status` field of a response word (R66): OK 0x0, BUS_ERROR 0x1, ILLEGAL 0x2. -/
def statusCode : Status → BitVec 4
  | .ok => 0x0
  | .busError => 0x1
  | .illegal => 0x2

end Sys2Proof.Machine
end

