-- ==== Sys2Proof/Config.lean ====
section
/-! DEFINITION. The constants of the block (00_scope.md R7, R8; 10_state.md R34) and the free
values (92_eei_decisions.md D14, D16, D17): what is fixed for the machine and never written. -/

namespace Sys2Proof.Config

/-- WIDTH, pixels per row (R7). UNVERIFIED literal of the source, log 15. -/
abbrev width : Nat := 256

/-- HEIGHT, rows (R7). UNVERIFIED literal of the source, log 15. -/
abbrev height : Nat := 64

/-- BPP, bits per pixel (R7). -/
abbrev bpp : Nat := 4

/-- ROW_BYTES = WIDTH/2 (R7). -/
abbrev rowBytes : Nat := width / 2

/-- FB_BYTES = (WIDTH*HEIGHT)/2 (R7, R21). -/
abbrev fbBytes : Nat := width * height / 2

/-- FULL_CHUNK_BYTES, the largest payload of FLUSHF (R123, D18): one payload for this hardware.
DESIGN CHOICE of the spec kept as a parameter, log 11. -/
abbrev fullChunkBytes : Nat := fbBytes

/-- FULL_FLUSH_RESETS_TRACKER (R123, D13), log 12. -/
abbrev fullFlushResetsTracker : Bool := true

/-- OP_ADDR, the device opcode of the addressing command: OPEN (R69, D16), log 10. -/
opaque opAddr : Byte

/-- OP_BEGIN_WRITE, the device opcode of "begin write": OPEN (R69, D16), log 10. -/
opaque opBeginWrite : Byte

/-- `DevCol`, the device column of a byte column: OPEN, a configuration function of which nothing
is assumed but that it depends on the byte column alone (42_flush.md R122, D17), log 9. -/
opaque devCol : Byte → Byte

/-- FREE VALUE: whether the n-th freely drawn transport answer is ok (00_scope.md R14, U5: "a free
draw per transaction, under no law"), log 3. -/
opaque freeAnswerIsOk : Nat → Bool

end Sys2Proof.Config
end

