-- ==== Sys2Proof/Machine/Operands.lean ====
section
/-! DEFINITION. What the operations compute from their operands: the bounds check, the byte index,
the byte column and row, the nibble of a pixel (20_memory.md R41, R45; 40_store.md R85 to R87). -/

namespace Sys2Proof.Machine

/-- `InBounds(x, y)`, compared as signed integers (R11, R85). -/
def inBounds (x y : Int) : Bool :=
  decide (0 ≤ x) && decide (x < (Config.width : Int)) &&
    (decide (0 ≤ y) && decide (y < (Config.height : Int)))

/-- The byte index `(x/2) + y*ROW_BYTES` of an in-bounds pixel (R41, R93). -/
def pixelIndex (x y : Int) : Nat := x.toNat / 2 + y.toNat * Config.rowBytes

/-- The byte column `x/2` of an in-bounds pixel as a bound register holds it (R25, R101). -/
def pixelColumn (x : Int) : Byte := BitVec.ofNat 8 (x.toNat / 2)

/-- The row `y` of an in-bounds pixel as a bound register holds it (R25, R101). -/
def pixelRow (y : Int) : Byte := BitVec.ofNat 8 y.toNat

/-- The candidate byte of a pixel write: one nibble replaced, the other kept (R81, R86). -/
def packNibble (old : Byte) (x : Int) (luma : Luma) : Byte :=
  if x.toNat % 2 = 0 then (old &&& 0x0F) ||| (luma.setWidth 8 <<< 4)
  else (old &&& 0xF0) ||| luma.setWidth 8

/-- The luma of a pixel in its byte: high nibble for even x, low nibble for odd x (R45, R87). -/
def unpackNibble (b : Byte) (x : Int) : Luma :=
  if x.toNat % 2 = 0 then b.extractLsb' 4 4 else b.extractLsb' 0 4

/-- Both nibbles set identically: `(luma << 4) | luma` (R82). -/
def bothNibbles (luma : Luma) : Byte := (luma.setWidth 8 <<< 4) ||| luma.setWidth 8

/-- The legal values of the bound registers while DV = 1 (R25, R105). -/
def Rect.legal (r : Rect) : Bool :=
  decide (r.cmin.toNat ≤ r.cmax.toNat) && decide (r.cmax.toNat < Config.rowBytes) &&
    (decide (r.rmin.toNat ≤ r.rmax.toNat) && decide (r.rmax.toNat < Config.height))

/-- Byte column `c` and row `r` are inside the rectangle, both ranges inclusive (R26). -/
def Rect.covers (q : Rect) (c r : Nat) : Bool :=
  decide (q.cmin.toNat ≤ c) && decide (c ≤ q.cmax.toNat) &&
    (decide (q.rmin.toNat ≤ r) && decide (r ≤ q.rmax.toNat))

/-- A contiguous slice of FB: its first index and its length (R71, R126). -/
structure Window where
  start : Nat
  length : Nat
  deriving DecidableEq, Repr

/-- The slices of FLUSHC, one per row of the rectangle, rows ascending (R124, R126). -/
def rectWindows (q : Rect) : List Window :=
  (List.range (q.rmax.toNat + 1 - q.rmin.toNat)).map fun k =>
    { start := (q.rmin.toNat + k) * Config.rowBytes + q.cmin.toNat
      length := q.cmax.toNat + 1 - q.cmin.toNat }

/-- The slices of FLUSHF from offset `off` on, each at most `chunk` bytes: the loop of R123. `fuel`
bounds the loop; FB_BYTES rounds are always enough. -/
def chunkWindowsFrom (chunk : Nat) : Nat → Nat → List Window
  | 0, _ => []
  | fuel + 1, off =>
    if off < Config.fbBytes then
      { start := off, length := min chunk (Config.fbBytes - off) } ::
        chunkWindowsFrom chunk fuel (off + min chunk (Config.fbBytes - off))
    else []

/-- The slices of FLUSHF for a given FULL_CHUNK_BYTES (R123). -/
def chunkWindows (chunk : Nat) : List Window := chunkWindowsFrom chunk Config.fbBytes 0

end Sys2Proof.Machine
end

