-- ==== Sys2Proof/Machine/Ops.lean ====
section
/-! DEFINITION. The named operations over FB, DR and the ports that the meanings share: `MemRead`,
`MemWrite`, the touch merge, the response, raising an abnormal status, the transport transactions
and reset (00_scope.md R11, R14; 60_exceptions.md R140 to R142; 70_reset_and_hazards.md R170). -/

namespace Sys2Proof.Machine

/-! ### The framebuffer -/

/-- What an index that no cell lists reads as: the reset value of FB (R23). -/
def Memory.unlisted : Byte := 0x00

/-- `MemRead(i, 1)` (R11). -/
def Memory.read : Memory → Nat → Byte
  | [], _ => Memory.unlisted
  | (a, b) :: m, i => if a = i then b else Memory.read m i

/-- `MemRead(i, n)`: the slice as a list, ascending index (R11, R46). -/
def Memory.slice (m : Memory) (w : Window) : List Byte :=
  (List.range w.length).map fun k => m.read (w.start + k)

/-- One cell in front of a memory, left out where it would read as an unlisted index does. -/
def Memory.cons (i : Nat) (v : Byte) (m : Memory) : Memory :=
  if v = Memory.unlisted then m else (i, v) :: m

/-- `MemWrite(i, 1, v)` (R11), keeping the canonical form (log 16). -/
def Memory.write : Memory → Nat → Byte → Memory
  | [], i, v => Memory.cons i v []
  | (a, b) :: m, i, v =>
    if i < a then Memory.cons i v ((a, b) :: m)
    else if i = a then Memory.cons i v m
    else (a, b) :: Memory.write m i v

/-- `v` at every index of FB (R82). -/
def Memory.fill (v : Byte) : Memory :=
  if v = Memory.unlisted then [] else (List.range' 0 Config.fbBytes).map fun i => (i, v)

/-- The canonical form from index `lo` on: indices strictly rising and inside FB (R21, R22), no cell
equal to an unlisted index. -/
def Memory.wfFrom : Nat → Memory → Bool
  | _, [] => true
  | lo, (a, b) :: m =>
    decide (lo ≤ a) && decide (a < Config.fbBytes) && b != Memory.unlisted &&
      Memory.wfFrom (a + 1) m

/-- The canonical form holds. -/
def Memory.wf (m : Memory) : Bool := Memory.wfFrom 0 m

/-! ### The dirty rectangle -/

/-- The one-sided widening of one axis (R101): bounds `lo`, `hi`, touched value `v`. -/
def widen (lo hi v : Byte) : Byte × Byte :=
  if v < lo then (v, hi) else if hi < v then (lo, v) else (lo, hi)

/-- TOUCH on the rectangle: initialise or widen (R101). The precondition is InBounds(x, y) (R110). -/
def touchRect (dr : Option Rect) (x y : Int) : Option Rect :=
  match dr with
  | none => some ⟨pixelColumn x, pixelColumn x, pixelRow y, pixelRow y⟩
  | some q =>
    some ⟨(widen q.cmin q.cmax (pixelColumn x)).1, (widen q.cmin q.cmax (pixelColumn x)).2,
      (widen q.rmin q.rmax (pixelRow y)).1, (widen q.rmin q.rmax (pixelRow y)).2⟩

/-- What GETDIRTY reports of the four bounds: zeros while absent (R25, R103). -/
def boundsWord (dr : Option Rect) : BitVec 32 :=
  match dr with
  | none => 0
  | some q => q.cmin ++ q.cmax ++ q.rmin ++ q.rmax

/-! ### Updates of the state -/

/-- Write FB. -/
def State.withFb (s : State) (m : Memory) : State := { s with fb := m }

/-- Write DR. -/
def State.withDr (s : State) (d : Option Rect) : State := { s with dr := d }

/-- TOUCH as a change of the state (R101). -/
def State.touch (s : State) (x y : Int) : State := s.withDr (touchRect s.dr x y)

/-- TRKRST as a change of the state (R102). -/
def State.trackerReset (s : State) : State := s.withDr none

/-- The R40 response word of a status, `aux` and `data` (R66). -/
def responseWord (st : Status) (aux : BitVec 4) (data : BitVec 32) : Word40 :=
  statusCode st ++ aux ++ data

/-- `respond(status, aux, data)` (R11): the one response word of a host operation. -/
def State.respond (s : State) (st : Status) (aux : BitVec 4) (data : BitVec 32) : State :=
  { s with responses := s.responses ++ [responseWord st aux data] }

/-- Raise an abnormal status: the operation ends with that status, `aux` and `data` 0, and nothing of
the block's state changes (R140, R146). The one shared exception operation. -/
def State.raise (s : State) (st : Status) : State := s.respond st 0 0

/-- `raise BusError` (R141). -/
def State.raiseBusError (s : State) : State := s.raise .busError

/-- `raise Illegal` (R142). -/
def State.raiseIllegal (s : State) : State := s.raise .illegal

/-- The reset input (R170): FB all 0x00, DR absent, no transaction, no response. What has left the
ports and what the host and the transport will still do stay (log 18). -/
def State.hardReset (s : State) : State := (s.withFb State.reset.fb).withDr State.reset.dr

/-! ### The transport -/

/-- The n-th free draw of an answer (R14, U5). -/
def freeAnswer (n : Nat) : Answer := if Config.freeAnswerIsOk n then .ok else .err

/-- The answer the k-th next transaction will get: the transport's script, then free draws. -/
def State.answerAt (s : State) (k : Nat) : Answer :=
  match s.answers[k]? with
  | some a => a
  | none => freeAnswer (s.draws + (k - s.answers.length))

/-- The state after `n` answers have been used. -/
def State.advance (s : State) (n : Nat) : State :=
  { s with answers := s.answers.drop n, draws := s.draws + (n - s.answers.length) }

/-- Record one transaction (R130, D28). -/
def State.record (s : State) (q : Request) (a : Answer) : State :=
  { s with trace := s.trace ++ [⟨q, a⟩] }

/-- `Tx(...)`: issue one transaction and take its answer (R11, R14, R68). -/
def State.issue (s : State) (q : Request) : Answer × State :=
  (s.answerAt 0, (s.advance 1).record q (s.answerAt 0))

/-- Issue transactions one at a time, ending at the first err (R120, R121). -/
def runRequests : List Request → State → Answer × State
  | [], s => (.ok, s)
  | q :: qs, s =>
    match (s.issue q).1 with
    | .ok => runRequests qs (s.issue q).2
    | .err => (.err, (s.issue q).2)

/-- A flush of `n` transactions meets a call that never returns: the transport is silent after its
script, no err of the script ends the flush before, and the script is too short (R186, U16). -/
def State.neverReturns (s : State) (n : Nat) : Bool :=
  s.silent && decide (s.answers.length < n) && decide (Answer.err ∉ s.answers)

/-- The addressing command for byte columns `c0` to `c1` and rows `r0` to `r1` (R69, R70, R122). -/
def addressingCommand (c0 c1 r0 r1 : Byte) : Request :=
  .cmd Config.opAddr [Config.devCol c0, Config.devCol c1, r0, r1]

/-- The "begin write" command (R69). -/
def beginWrite : Request := .cmd Config.opBeginWrite []

/-- The payloads of some slices of FB (R71). -/
def payloads (fb : Memory) (ws : List Window) : List Request := ws.map fun w => .data (fb.slice w)

/-- The transactions FLUSHF issues, for a given FULL_CHUNK_BYTES (R123). -/
def fullPlan (chunk : Nat) (fb : Memory) : List Request :=
  addressingCommand 0 (BitVec.ofNat 8 (Config.rowBytes - 1)) 0
      (BitVec.ofNat 8 (Config.height - 1)) ::
    beginWrite :: payloads fb (chunkWindows chunk)

/-- The transactions FLUSHC issues for a rectangle (R124). -/
def rectPlan (q : Rect) (fb : Memory) : List Request :=
  addressingCommand q.cmin q.cmax q.rmin q.rmax :: beginWrite :: payloads fb (rectWindows q)

/-- Run a flush's transactions: on full success `resetAfter` says whether TRKRST is issued, once, and
the response is OK; at the first err the response is BUS_ERROR and the rest is unchanged (R121, R125). -/
def State.flush (s : State) (plan : List Request) (resetAfter : Bool) : State :=
  match (runRequests plan s).1 with
  | .ok =>
    (if resetAfter then (runRequests plan s).2.trackerReset else (runRequests plan s).2).respond
      .ok 0 0
  | .err => (runRequests plan s).2.raiseBusError

/-- A flush as an outcome: it is stuck where a transport call never returns (R186, U16). -/
def flushOutcome (s : State) (plan : List Request) (resetAfter : Bool) :
    Host.Outcome State Fault Refusal :=
  if s.neverReturns plan.length then .fault .transportNeverReturns
  else .next (s.flush plan resetAfter)

/-- FLUSHF for given FULL_CHUNK_BYTES and FULL_FLUSH_RESETS_TRACKER (R123). -/
def flushFullWith (chunk : Nat) (resets : Bool) (s : State) : Host.Outcome State Fault Refusal :=
  flushOutcome s (fullPlan chunk s.fb) resets

end Sys2Proof.Machine
end

