-- ==== Sys2Proof/Machine/Flush.lean ====
section
/-! DEFINITION. Family 3, the Flush Engine: FLUSHF, FLUSHC (42_flush.md). -/

namespace Sys2Proof.Machine

/-- FLUSHF (R123): the whole framebuffer, whatever DR holds. -/
def execFlushf (s : State) : Host.Outcome State Fault Refusal :=
  flushFullWith Config.fullChunkBytes Config.fullFlushResetsTracker s

/-- FLUSHC (R124): nothing while DR is absent (R127); else the rectangle, one slice per row, and TRKRST
once after full success (R125). Bounds that R25 does not allow are a fault, log 14. -/
def execFlushc (s : State) : Host.Outcome State Fault Refusal :=
  match s.dr with
  | none => .next (s.respond .ok 0 0)
  | some q =>
    if q.legal then flushOutcome s (rectPlan q s.fb) true else .fault .illegalRectangle

end Sys2Proof.Machine
end

