-- ==== Sys2Proof/Machine/Reserved.lean ====
section
/-! DEFINITION. The reserved opcodes 0x0 and 0xA to 0xF on the host port: each is answered ILLEGAL and
changes nothing else (30_encoding.md R65, 60_exceptions.md R142, log 6). -/

namespace Sys2Proof.Machine

/-- RESERVED_0 (R142). -/
def execReserved0 (s : State) : Host.Outcome State Fault Refusal := .next s.raiseIllegal

/-- RESERVED_A (R142). -/
def execReservedA (s : State) : Host.Outcome State Fault Refusal := .next s.raiseIllegal

/-- RESERVED_B (R142). -/
def execReservedB (s : State) : Host.Outcome State Fault Refusal := .next s.raiseIllegal

/-- RESERVED_C (R142). -/
def execReservedC (s : State) : Host.Outcome State Fault Refusal := .next s.raiseIllegal

/-- RESERVED_D (R142). -/
def execReservedD (s : State) : Host.Outcome State Fault Refusal := .next s.raiseIllegal

/-- RESERVED_E (R142). -/
def execReservedE (s : State) : Host.Outcome State Fault Refusal := .next s.raiseIllegal

/-- RESERVED_F (R142). -/
def execReservedF (s : State) : Host.Outcome State Fault Refusal := .next s.raiseIllegal

end Sys2Proof.Machine
end

