-- ==== Sys2Proof/Machine/Store.lean ====
section
/-! DEFINITION. Family 1, the Framebuffer Store: SETPX, CLEAR, GETPX, GETDIMS (40_store.md). Every
operation of the family ends with status OK and emits no transaction (R80). -/

namespace Sys2Proof.Machine

/-- A pixel write (R81): nothing out of bounds; no write and no touch where the byte would not change. -/
def State.setPixel (s : State) (x y : Int) (luma : Luma) : State :=
  if inBounds x y then
    if packNibble (s.fb.read (pixelIndex x y)) x luma = s.fb.read (pixelIndex x y) then s
    else
      (s.withFb (s.fb.write (pixelIndex x y)
        (packNibble (s.fb.read (pixelIndex x y)) x luma))).touch x y
  else s

/-- SETPX x, y, luma (R81, R85). -/
def execSetpx (x y : Int) (luma : Luma) (s : State) : Host.Outcome State Fault Refusal :=
  .next ((s.setPixel x y luma).respond .ok 0 0)

/-- CLEAR luma (R82): every byte; DR is neither read nor written. -/
def execClear (luma : Luma) (s : State) : Host.Outcome State Fault Refusal :=
  .next ((s.withFb (Memory.fill (bothNibbles luma))).respond .ok 0 0)

/-- GETPX x, y (R83): `aux` the luma and `data[0] = 1`; out of bounds both 0. -/
def execGetpx (x y : Int) (s : State) : Host.Outcome State Fault Refusal :=
  .next (if inBounds x y then s.respond .ok (unpackNibble (s.fb.read (pixelIndex x y)) x) 1
    else s.respond .ok 0 0)

/-- GETDIMS (R84): `aux = BPP`, `data = {HEIGHT, WIDTH}`. -/
def execGetdims (s : State) : Host.Outcome State Fault Refusal :=
  .next (s.respond .ok (BitVec.ofNat 4 Config.bpp)
    (BitVec.ofNat 16 Config.height ++ BitVec.ofNat 16 Config.width))

end Sys2Proof.Machine
end

