-- ==== Sys2Proof/Machine/Tracker.lean ====
section
/-! DEFINITION. Family 2, the Change Tracker: TOUCH, TRKRST, GETDIRTY (41_tracker.md). -/

namespace Sys2Proof.Machine

/-- TOUCH x, y on the tracker port (R101): no response. Outside its precondition InBounds(x, y) the
spec gives it no meaning (R110, U13), log 7. -/
def execTouch (x y : Int) (s : State) : Host.Outcome State Fault Refusal :=
  if inBounds x y then .next (s.touch x y) else .refused .touchOutOfBounds

/-- TRKRST on the tracker port (R102): no response. -/
def execTrkrst (s : State) : Host.Outcome State Fault Refusal := .next s.trackerReset

/-- GETDIRTY (R103): `aux[0] = DV`, `data` the four bounds. -/
def execGetdirty (s : State) : Host.Outcome State Fault Refusal :=
  .next (s.respond .ok (s.dv.setWidth 4) (boundsWord s.dr))

end Sys2Proof.Machine
end

