-- ==== Sys2Proof/Syntax.lean ====
section
/-! DEFINITION. The operations of the block, one constructor per row of spec/opcode_table.json
(30_encoding.md R63), and the two ports their words arrive on (R60, R72). -/

namespace Sys2Proof

/-- The operations. Coordinates are the integers of 30_encoding.md R62; a field an operation
ignores (R64) is no operand of its constructor. -/
inductive Instr where
  /-- SETPX x, y, luma (R81). -/
  | setpx (x y : Int) (luma : Luma)
  /-- CLEAR luma (R82). -/
  | clear (luma : Luma)
  /-- FLUSHF (R123). -/
  | flushf
  /-- FLUSHC (R124). -/
  | flushc
  /-- GETPX x, y (R83). -/
  | getpx (x y : Int)
  /-- GETDIMS (R84). -/
  | getdims
  /-- GETDIRTY (R103). -/
  | getdirty
  /-- TOUCH x, y: tracker port only (R101). -/
  | touch (x y : Int)
  /-- TRKRST: tracker port only (R102). -/
  | trkrst
  /-- Reserved opcode 0x0 (R65, R142). -/
  | reserved0
  /-- Reserved opcode 0xA (R65, R142). -/
  | reservedA
  /-- Reserved opcode 0xB (R65, R142). -/
  | reservedB
  /-- Reserved opcode 0xC (R65, R142). -/
  | reservedC
  /-- Reserved opcode 0xD (R65, R142). -/
  | reservedD
  /-- Reserved opcode 0xE (R65, R142). -/
  | reservedE
  /-- Reserved opcode 0xF (R65, R142). -/
  | reservedF
  deriving DecidableEq, Repr

/-- The ports that carry C40 words: the host port and the internal tracker port (R60, R72). -/
inductive Port where
  | host
  | tracker
  deriving DecidableEq, Repr

/-- One pixel assignment of a drawing sequence (R76): coordinates and grayscale. -/
structure Pixel where
  x : Int
  y : Int
  luma : Luma
  deriving DecidableEq, Repr

end Sys2Proof
end

