-- ==== Sys2Proof/Machine/Dispatch.lean ====
section
/-! DEFINITION. One arm per operation of spec/opcode_table.json. -/

namespace Sys2Proof.Machine

def exec (i : Instr) (s : State) : Host.Outcome State Fault Refusal :=
  match i with
  | .setpx x y luma => Sys2Proof.Machine.execSetpx x y luma s
  | .clear luma => Sys2Proof.Machine.execClear luma s
  | .flushf => Sys2Proof.Machine.execFlushf s
  | .flushc => Sys2Proof.Machine.execFlushc s
  | .getpx x y => Sys2Proof.Machine.execGetpx x y s
  | .getdims => Sys2Proof.Machine.execGetdims s
  | .getdirty => Sys2Proof.Machine.execGetdirty s
  | .touch x y => Sys2Proof.Machine.execTouch x y s
  | .trkrst => Sys2Proof.Machine.execTrkrst s
  | .reserved0 => Sys2Proof.Machine.execReserved0 s
  | .reservedA => Sys2Proof.Machine.execReservedA s
  | .reservedB => Sys2Proof.Machine.execReservedB s
  | .reservedC => Sys2Proof.Machine.execReservedC s
  | .reservedD => Sys2Proof.Machine.execReservedD s
  | .reservedE => Sys2Proof.Machine.execReservedE s
  | .reservedF => Sys2Proof.Machine.execReservedF s

end Sys2Proof.Machine
end

