-- ==== Sys2Proof/WellFormed.lean ====
section
/-! DEFINITION. Which operations a command word can carry: coordinates must fit the signed 16-bit
fields (30_encoding.md R62, R75; 70_reset_and_hazards.md R184). -/

namespace Sys2Proof

/-- The value fits a two's-complement 16-bit coordinate field: -32768 .. 32767 (R62, R75). -/
def coordFits (v : Int) : Bool := decide (-32768 ≤ v) && decide (v ≤ 32767)

/-- What the assembler of R75 accepts. A luma outside 0 .. 15 cannot be expressed (R62, U17). -/
def Instr.wf : Instr → Bool
  | .setpx x y _ => coordFits x && coordFits y
  | .clear _ => true
  | .flushf => true
  | .flushc => true
  | .getpx x y => coordFits x && coordFits y
  | .getdims => true
  | .getdirty => true
  | .touch x y => coordFits x && coordFits y
  | .trkrst => true
  | .reserved0 => true
  | .reservedA => true
  | .reservedB => true
  | .reservedC => true
  | .reservedD => true
  | .reservedE => true
  | .reservedF => true

end Sys2Proof
end

