-- ==== Sys2Proof/Decode.lean ====
section
/-! DEFINITION. Decoding of C40 words on the two ports (30_encoding.md R61 to R65, R74), the encoder
of R75, the DRAW expansion of R76, and the host's table-word decoder. -/

namespace Sys2Proof

/-- Why a port carries no operation for a word. -/
inductive Reject where
  /-- On the host port: TOUCH or TRKRST, which exist on the tracker port only (R65). -/
  | trackerOnly (op : BitVec 4)
  /-- On the tracker port: any other opcode, which its drivers never send (R72, R74). -/
  | notOnTracker (op : BitVec 4)
  deriving DecidableEq, Repr

/-- The field `op`, bits 39:36 (R61). -/
def fieldOp (w : Word40) : BitVec 4 := w.extractLsb' 36 4

/-- The field `luma`, bits 35:32, read unsigned (R61, R62). -/
def fieldLuma (w : Word40) : Luma := w.extractLsb' 32 4

/-- The field `y`, bits 31:16, sign extended (R61, R62). -/
def fieldY (w : Word40) : Int := (w.extractLsb' 16 16).toInt

/-- The field `x`, bits 15:0, sign extended (R61, R62). -/
def fieldX (w : Word40) : Int := (w.extractLsb' 0 16).toInt

/-- `decode_host` of R74. The reserved opcodes decode to the constructors of their table rows,
whose meaning is the ILLEGAL response; 0x8 and 0x9 are rejected by name. The opcode has 4 bits, so
the last arm is 0xF alone. -/
def decodeHost (w : Word40) : Except Reject Instr :=
  match (fieldOp w).toNat with
  | 0x0 => .ok .reserved0
  | 0x1 => .ok (.setpx (fieldX w) (fieldY w) (fieldLuma w))
  | 0x2 => .ok (.clear (fieldLuma w))
  | 0x3 => .ok .flushf
  | 0x4 => .ok .flushc
  | 0x5 => .ok (.getpx (fieldX w) (fieldY w))
  | 0x6 => .ok .getdims
  | 0x7 => .ok .getdirty
  | 0x8 => .error (.trackerOnly 0x8)
  | 0x9 => .error (.trackerOnly 0x9)
  | 0xA => .ok .reservedA
  | 0xB => .ok .reservedB
  | 0xC => .ok .reservedC
  | 0xD => .ok .reservedD
  | 0xE => .ok .reservedE
  | _ => .ok .reservedF

/-- `decode_tracker` of R74: only 0x8 and 0x9 are ever driven. -/
def decodeTracker (w : Word40) : Except Reject Instr :=
  if fieldOp w = 0x8 then .ok (.touch (fieldX w) (fieldY w))
  else if fieldOp w = 0x9 then .ok .trkrst
  else .error (.notOnTracker (fieldOp w))

/-- The decoder of a port (R74). -/
def decode (p : Port) (w : Word40) : Except Reject Instr :=
  match p with
  | .host => decodeHost w
  | .tracker => decodeTracker w

/-- The port an operation arrives on: the column "Port" of R63. -/
def Instr.port : Instr → Port
  | .setpx _ _ _ => .host
  | .clear _ => .host
  | .flushf => .host
  | .flushc => .host
  | .getpx _ _ => .host
  | .getdims => .host
  | .getdirty => .host
  | .touch _ _ => .tracker
  | .trkrst => .tracker
  | .reserved0 => .host
  | .reservedA => .host
  | .reservedB => .host
  | .reservedC => .host
  | .reservedD => .host
  | .reservedE => .host
  | .reservedF => .host

/-- The opcode number of an operation: the column "op" of R63. -/
def Instr.opcode : Instr → BitVec 4
  | .reserved0 => 0x0
  | .setpx _ _ _ => 0x1
  | .clear _ => 0x2
  | .flushf => 0x3
  | .flushc => 0x4
  | .getpx _ _ => 0x5
  | .getdims => 0x6
  | .getdirty => 0x7
  | .touch _ _ => 0x8
  | .trkrst => 0x9
  | .reservedA => 0xA
  | .reservedB => 0xB
  | .reservedC => 0xC
  | .reservedD => 0xD
  | .reservedE => 0xE
  | .reservedF => 0xF

/-- A C40 word from its four fields: the assembler's `(op << 36) | (luma << 32) | ((y & 0xFFFF) << 16)
| (x & 0xFFFF)` (R75). -/
def packCommand (op : BitVec 4) (luma : Luma) (x y : Int) : Word40 :=
  op ++ luma ++ BitVec.ofInt 16 y ++ BitVec.ofInt 16 x

/-- The assembler's word of an operation, with unused fields 0 (R75). -/
def encode (i : Instr) : Word40 :=
  match i with
  | .setpx x y luma => packCommand i.opcode luma x y
  | .clear luma => packCommand i.opcode luma 0 0
  | .flushf => packCommand i.opcode 0 0 0
  | .flushc => packCommand i.opcode 0 0 0
  | .getpx x y => packCommand i.opcode 0 x y
  | .getdims => packCommand i.opcode 0 0 0
  | .getdirty => packCommand i.opcode 0 0 0
  | .touch x y => packCommand i.opcode 0 x y
  | .trkrst => packCommand i.opcode 0 0 0
  | .reserved0 => packCommand i.opcode 0 0 0
  | .reservedA => packCommand i.opcode 0 0 0
  | .reservedB => packCommand i.opcode 0 0 0
  | .reservedC => packCommand i.opcode 0 0 0
  | .reservedD => packCommand i.opcode 0 0 0
  | .reservedE => packCommand i.opcode 0 0 0
  | .reservedF => packCommand i.opcode 0 0 0

/-- The bits of a word an operation looks at: its opcode and the fields R64 does not let it ignore. -/
def Instr.usedBits : Instr → Word40
  | .setpx _ _ _ => 0xFFFFFFFFFF
  | .clear _ => 0xFF00000000
  | .flushf => 0xF000000000
  | .flushc => 0xF000000000
  | .getpx _ _ => 0xF0FFFFFFFF
  | .getdims => 0xF000000000
  | .getdirty => 0xF000000000
  | .touch _ _ => 0xF0FFFFFFFF
  | .trkrst => 0xF000000000
  | .reserved0 => 0xF000000000
  | .reservedA => 0xF000000000
  | .reservedB => 0xF000000000
  | .reservedC => 0xF000000000
  | .reservedD => 0xF000000000
  | .reservedE => 0xF000000000
  | .reservedF => 0xF000000000

/-- The assembler of R75: it refuses an operand that does not fit rather than truncate it (R184). -/
def assemble (i : Instr) : Option Word40 := if i.wf then some (encode i) else none

/-- The pseudo-instruction DRAW: one SETPX per pixel, in sequence order (R76). -/
def draw (pixels : List Pixel) : List Instr := pixels.map fun p => .setpx p.x p.y p.luma

/-- The port a word of spec/opcode_table.json belongs to: its row's "port". -/
def tablePort (w : Word40) : Port :=
  if fieldOp w = 0x8 ∨ fieldOp w = 0x9 then .tracker else .host

/-- The word whose lowest `nbits` bits are those of `w`, the rest 0; a C40 word is delivered whole, so
it has no byte order (R46, R60). -/
def tableWord (nbits w : Nat) : Word40 := BitVec.ofNat 40 (w % 2 ^ nbits)

/-- The operation read from a word numbered as spec/opcode_table.json numbers it, on the port its row
names. -/
def decodeTableWord (nbits w : Nat) : Option Instr :=
  match decode (tablePort (tableWord nbits w)) (tableWord nbits w) with
  | .ok i => some i
  | .error _ => none

end Sys2Proof
end

