-- ==== Sys2Proof/Machine/Fetch.lean ====
section
/-! DEFINITION. What the block takes up next: the word on the tracker port, else the host's next
input (00_scope.md R12, R15; 30_encoding.md R60, R72; 70_reset_and_hazards.md R170). -/

namespace Sys2Proof.Machine

/-- What a step takes up, with the state after it has been taken off its port. -/
inductive Fetched where
  /-- No word and no reset: the block is idle (R156). -/
  | idle
  /-- The reset input (R170). -/
  | reset (s : State)
  /-- An operation. -/
  | run (i : Instr) (s : State)
  /-- A host word whose opcode is no host operation (R65). -/
  | illegal (s : State)
  /-- A tracker word its drivers never send (R72, R74), log 8. -/
  | undriven
  deriving DecidableEq, Repr

/-- Take the word off the tracker port. -/
def State.takeTracker (s : State) : State := { s with trackerIn := none }

/-- Take the host's next input; `rest` is what the host will do after it. -/
def State.takeInput (s : State) (rest : List HostInput) : State := { s with inputs := rest }

/-- A word on the tracker port (R74). -/
def fetchTracker (w : Word40) (s : State) : Fetched :=
  match decodeTracker w with
  | .ok i => .run i s.takeTracker
  | .error _ => .undriven

/-- A command word on the host port (R74): a rejected word is Illegal (R142). -/
def fetchHost (w : Word40) (rest : List HostInput) (s : State) : Fetched :=
  match decodeHost w with
  | .ok i => .run i (s.takeInput rest)
  | .error _ => .illegal (s.takeInput rest)

/-- What the block takes up next. A word on the internal port goes before the host's (log 2). -/
def fetch (s : State) : Fetched :=
  match s.trackerIn with
  | some w => fetchTracker w s
  | none =>
    match s.inputs with
    | [] => .idle
    | .reset :: rest => .reset (s.takeInput rest)
    | .command w :: rest => fetchHost w rest s

/-- Put a word on the tracker port. -/
def State.presentTracker (s : State) (w : Word40) : State := { s with trackerIn := some w }

/-- Let the host present a word next, with nothing standing on the tracker port. -/
def State.presentHost (s : State) (w : Word40) : State :=
  { s with trackerIn := none, inputs := .command w :: s.inputs }

/-- Put a word where its row of spec/opcode_table.json says it arrives. -/
def State.present (s : State) (w : Word40) : State :=
  match tablePort w with
  | .tracker => s.presentTracker w
  | .host => s.presentHost w

end Sys2Proof.Machine
end

