-- ==== Sys2Proof/Machine/Step.lean ====
section
/-! DEFINITION. One step of the machine: one command, one tracker word or one reset, each run to
completion (00_scope.md R15); idle otherwise (60_exceptions.md R156). -/

namespace Sys2Proof.Machine

def step (s : State) : Host.Outcome State Fault Refusal :=
  match fetch s with
  | .idle => .next s
  | .reset s' => .next s'.hardReset
  | .run i s' => exec i s'
  | .illegal s' => .next s'.raiseIllegal
  | .undriven => .refused .undrivenTrackerWord

/-- The state whose next step runs the word of the table `w` of `nbits` bits. -/
def State.withFetchWord (s : State) (nbits w : Nat) : State := s.present (tableWord nbits w)

end Sys2Proof.Machine
end

