-- ==== Sys2Proof/Machine/Assembler.lean ====
section
/-! DEFINITION. The assembler's lines (30_encoding.md R75) and the pseudo-instruction DRAW (R76), as lists
of characters: one operation per line, operands separated by commas, `;` opens a comment. The spec says
nothing of white space, of empty lines or of other spellings of a number: DESIGN CHOICE, log 26. -/

namespace Sys2Proof

/-- One line of assembler text. -/
abbrev Line := List Char

/-- The line before its comment. -/
def dropComment (cs : Line) : Line := cs.takeWhile fun c => c != ';'

/-- A blank: a space or a tab. DESIGN CHOICE, log 26. -/
def isBlank (c : Char) : Bool := c == ' ' || c == '\t'

/-- The line after its leading blanks. Blanks may stand before and after every token, never inside one:
DESIGN CHOICE, log 26. -/
def skipBlanks (cs : Line) : Line := cs.dropWhile isBlank

/-- The number of a decimal digit sequence. -/
def digitsValue (cs : Line) : Nat := cs.foldl (fun n c => 10 * n + (c.toNat - 48)) 0

/-- A non-empty digit sequence in front of a line, and the rest. -/
def parseNat (cs : Line) : Option (Nat × Line) :=
  if cs.takeWhile Char.isDigit = [] then none
  else some (digitsValue (cs.takeWhile Char.isDigit), cs.dropWhile Char.isDigit)

/-- A decimal integer, perhaps negative, after blanks, and the rest. Its sign is `-` directly before the
digits; `+` is refused and leading zeros are read: DESIGN CHOICE, log 26. -/
def parseInt (cs : Line) : Option (Int × Line) :=
  match skipBlanks cs with
  | '-' :: rest => (parseNat rest).map fun p => (-(p.1 : Int), p.2)
  | digits => (parseNat digits).map fun p => ((p.1 : Int), p.2)

/-- A given character after blanks, and the rest. -/
def parseChar (c : Char) (cs : Line) : Option Line :=
  match skipBlanks cs with
  | d :: rest => if d = c then some rest else none
  | [] => none

/-- A luma 0 to 15: a decimal integer outside is refused, not truncated (R75). -/
def parseLuma (cs : Line) : Option (Luma × Line) :=
  (parseNat (skipBlanks cs)).bind fun p => if p.1 ≤ 15 then some (BitVec.ofNat 4 p.1, p.2) else none

/-- `x, y`. -/
def parsePair (cs : Line) : Option ((Int × Int) × Line) :=
  (parseInt cs).bind fun x => (parseChar ',' x.2).bind fun r => (parseInt r).map fun y => ((x.1, y.1), y.2)

/-- `x, y, luma`. -/
def parsePixel (cs : Line) : Option (Pixel × Line) :=
  (parsePair cs).bind fun p => (parseChar ',' p.2).bind fun r => (parseLuma r).map fun l =>
    (⟨p.1.1, p.1.2, l.1⟩, l.2)

/-- `(x, y, luma)`. -/
def parseGroup (cs : Line) : Option (Pixel × Line) :=
  (parseChar '(' cs).bind fun r => (parsePixel r).bind fun p => (parseChar ')' p.2).map fun r' => (p.1, r')

/-- `(x, y, luma), (x, y, luma), ...` to the end of the line; `fuel` bounds the number of groups. -/
def parseGroups : Nat → Line → Option (List Pixel)
  | 0, _ => none
  | fuel + 1, cs =>
    (parseGroup cs).bind fun p =>
      match skipBlanks p.2 with
      | [] => some [p.1]
      | _ => (parseChar ',' p.2).bind fun r => (parseGroups fuel r).map fun ps => p.1 :: ps

/-- What has been read, if only blanks are left of the line. -/
def atEnd {α : Type} (p : α × Line) : Option α := if skipBlanks p.2 = [] then some p.1 else none

/-- The operations of a mnemonic and its operands (R75, R76). Without either, a blank or comment-only
line, it is no operation and no error; a mnemonic is read in capitals only: DESIGN CHOICE, log 26. -/
def parseOperation (mnemonic operands : Line) : Option (List Instr) :=
  if mnemonic = [] ∧ operands = [] then some []
  else if mnemonic = ['S', 'E', 'T', 'P', 'X'] then
    ((parsePixel operands).bind atEnd).map fun p => [.setpx p.x p.y p.luma]
  else if mnemonic = ['C', 'L', 'E', 'A', 'R'] then
    ((parseLuma operands).bind atEnd).map fun l => [.clear l]
  else if mnemonic = ['G', 'E', 'T', 'P', 'X'] then
    ((parsePair operands).bind atEnd).map fun p => [.getpx p.1 p.2]
  else if mnemonic = ['T', 'O', 'U', 'C', 'H'] then
    ((parsePair operands).bind atEnd).map fun p => [.touch p.1 p.2]
  else if mnemonic = ['D', 'R', 'A', 'W'] then
    if operands = [] then some [] else (parseGroups operands.length operands).map draw
  else if operands ≠ [] then none
  else if mnemonic = ['F', 'L', 'U', 'S', 'H', 'F'] then some [.flushf]
  else if mnemonic = ['F', 'L', 'U', 'S', 'H', 'C'] then some [.flushc]
  else if mnemonic = ['G', 'E', 'T', 'D', 'I', 'M', 'S'] then some [.getdims]
  else if mnemonic = ['G', 'E', 'T', 'D', 'I', 'R', 'T', 'Y'] then some [.getdirty]
  else if mnemonic = ['T', 'R', 'K', 'R', 'S', 'T'] then some [.trkrst]
  else none

/-- The operations of a line: its mnemonic ends at the first blank, so operands follow at least one
(R75; DESIGN CHOICE, log 26). -/
def parseLine (cs : Line) : Option (List Instr) :=
  parseOperation ((skipBlanks (dropComment cs)).takeWhile fun c => !isBlank c)
    (skipBlanks ((skipBlanks (dropComment cs)).dropWhile fun c => !isBlank c))

/-- The words of a line: refused as a whole if a coordinate does not fit (R75, R184). -/
def assembleLine (cs : Line) : Option (List Word40) := (parseLine cs).bind fun is => is.mapM assemble

end Sys2Proof
end

