-- ==== Sys2Proof/Safety.lean ====
section
/-! DEFINITION. The terms claims are stated in: the invariant of the block (41_tracker.md R105), what a
flush's answers are like (42_flush.md R121, 70_reset_and_hazards.md R186), runs of several operations,
and the ghost of the device's video RAM (20_memory.md R55, log 25). -/

namespace Sys2Proof.Machine

/-- FB is a canonical array (R21, R22), and DR, when present, holds legal bounds (R105). -/
def State.Inv (s : State) : Prop :=
  s.fb.wf = true ∧ ∀ q, s.dr = some q → q.legal = true

/-- Every one of the next `n` transactions is answered, or an err ends the flush before: the premise
"every transaction is answered" of R186. -/
def State.answered (s : State) (n : Nat) : Prop := s.neverReturns n = false

/-- The next `n` transactions are all answered ok. -/
def State.willSucceed (s : State) (n : Nat) : Prop :=
  s.answered n ∧ ∀ k, k < n → s.answerAt k = .ok

/-- Of the next `n` transactions number `k`, counted from 0, is the first answered err (R128). -/
def State.willFailAt (s : State) (n k : Nat) : Prop :=
  s.answered n ∧ k < n ∧ (∀ j, j < k → s.answerAt j = .ok) ∧ s.answerAt k = .err

/-- Operations one after the other (R52), stopping at the first fault or refusal. -/
def execAll : List Instr → State → Host.Outcome State Fault Refusal
  | [], s => .next s
  | i :: is, s =>
    match exec i s with
    | .next t => execAll is t
    | .fault r => .fault r
    | .refused r => .refused r

/-- The bytes a transaction carries as pixel data. -/
def Transaction.dataBytes (t : Transaction) : List Byte :=
  match t.request with
  | .cmd _ _ => []
  | .data bytes => bytes

/-- The transactions of a flush that ended with all answers ok. -/
def allOk (plan : List Request) : List Transaction := plan.map fun q => ⟨q, .ok⟩

/-- The transactions of a flush whose transaction number `k` was the first answered err (R128, D28). -/
def failedAt (plan : List Request) (k : Nat) : List Transaction :=
  allOk (plan.take k) ++ ((plan.drop k).take 1).map fun q => ⟨q, .err⟩

/-! ### The ghost of the device's video RAM -/

/-- One byte per FB index; the block never reads it (R55). DESIGN CHOICE, log 25. -/
abbrev Mirror := Nat → Byte

/-- The device stores a payload at the slice of FB it came from. -/
def Mirror.store (m : Mirror) (start : Nat) (bytes : List Byte) : Mirror := fun i =>
  if start ≤ i ∧ i < start + bytes.length then bytes.getD (i - start) 0 else m i

/-- The device receives the transactions of one flush; the payloads are the slices `ws` in order, and a
payload is stored only if its answer was ok (R55). -/
def Mirror.receive : List Window → List Transaction → Mirror → Mirror
  | ws, ⟨.cmd _ _, _⟩ :: ts, m => Mirror.receive ws ts m
  | w :: ws, ⟨.data bytes, .ok⟩ :: ts, m => Mirror.receive ws ts (m.store w.start bytes)
  | _, _, m => m

end Sys2Proof.Machine
end

