-- ==== Sys2Proof/Certificates/Slice0/Obligations.lean ====
section
/-! DEFINITION. The statements for the provers. Each docstring names the rule of spec/ it formalises. In
them 0x0000000000, 0x1000000000 and 0x2000000000 are the response words OK, BUS_ERROR and ILLEGAL with
`aux` and `data` 0 (30_encoding.md R66); `responses` and `trace` are the histories of log 5. -/

open Sys2Proof Sys2Proof.Machine Host

/-! ### Encoding -/

/-- Words written out from the opcode map (R63) and the vectors of 95_test_vectors.md decode to the
operations they stand for. -/
def Obligations.SpecWordsDecodeToTheirOperations : Prop :=
  decode .host 0x1A003F00FF = .ok (.setpx 255 63 10) ∧
  decode .host 0x19FFFFFFFF = .ok (.setpx (-1) (-1) 9) ∧
  decode .host 0x27DEADBEEF = .ok (.clear 7) ∧
  decode .host 0x3000000000 = .ok .flushf ∧
  decode .host 0x4FFFFFFFFF = .ok .flushc ∧
  decode .host 0x50003F00FE = .ok (.getpx 254 63) ∧
  decode .host 0x6ABCDEF123 = .ok .getdims ∧
  decode .host 0x7123456789 = .ok .getdirty ∧
  decode .tracker 0x8000280032 = .ok (.touch 50 40) ∧
  decode .tracker 0x9000000000 = .ok .trkrst ∧
  decode .host 0xFFFFFFFFFF = .ok .reservedF ∧
  decode .host 0x8000050005 = .error (.trackerOnly 8)

/-- R61, R62, R63, R74, R75: the word the assembler makes of an operation that fits, decoded on the
operation's port, is that operation. -/
def Obligations.DecodeOfEncodeIsTheOperation : Prop :=
  ∀ i : Instr, i.wf = true → decode i.port (encode i) = .ok i

/-- R64, R75: a word and the assembler's word of what it decodes to agree on the bits the operation
uses, and the assembler's word has zeros elsewhere. -/
def Obligations.EncodeOfDecodeKeepsTheUsedBits : Prop :=
  ∀ (p : Port) (w : Word40) (i : Instr), decode p w = .ok i → encode i = w &&& i.usedBits

/-- R64: fields an operation does not use are ignored. The bits looked at are written out per opcode:
all 40 for SETPX, `op` and `luma` for CLEAR, `op`, `y` and `x` for GETPX and TOUCH, `op` for the rest.
-/
def Obligations.UnusedFieldsAreIgnored : Prop :=
  ∀ (p : Port) (w w' : Word40),
    let used : Word40 :=
      if w >>> 36 = 0x1 then 0xFFFFFFFFFF
      else if w >>> 36 = 0x2 then 0xFF00000000
      else if w >>> 36 = 0x5 ∨ w >>> 36 = 0x8 then 0xF0FFFFFFFF
      else 0xF000000000
    w &&& used = w' &&& used → decode p w = decode p w'

/-- R62: the coordinates of a word are its 16-bit fields read as two's complement, its luma the 4-bit
field read unsigned. -/
def Obligations.OperandFieldsAreSignExtended : Prop :=
  ∀ (l : BitVec 4) (y x : BitVec 16),
    decode .host (0x1#4 ++ l ++ y ++ x) = .ok (.setpx x.toInt y.toInt l) ∧
    decode .host (0x2#4 ++ l ++ y ++ x) = .ok (.clear l) ∧
    decode .host (0x5#4 ++ l ++ y ++ x) = .ok (.getpx x.toInt y.toInt) ∧
    decode .tracker (0x8#4 ++ l ++ y ++ x) = .ok (.touch x.toInt y.toInt)

/-- R62, R65, R72: what a port decodes fits the fields and belongs to that port; so no host word is a
TOUCH or a TRKRST. -/
def Obligations.DecodedOperationsFitAndBelongToTheirPort : Prop :=
  ∀ (p : Port) (w : Word40) (i : Instr), decode p w = .ok i → i.wf = true ∧ i.port = p

/-- R75, R184: the assembler emits `(op << 36) | (luma << 32) | ((y & 0xFFFF) << 16) | (x & 0xFFFF)`
with unused fields 0, and refuses a coordinate outside -32768 .. 32767 rather than truncate it. -/
def Obligations.AssemblerEmitsTheWordOrRefuses : Prop :=
  ∀ (x y : Int) (l : Luma),
    let fits := -32768 ≤ x ∧ x ≤ 32767 ∧ -32768 ≤ y ∧ y ≤ 32767
    let word := fun (op : Word40) (luma : Luma) (x y : Int) =>
      (op <<< 36) ||| (luma.setWidth 40 <<< 32) ||| ((BitVec.ofInt 40 y &&& 0xFFFF) <<< 16) |||
        (BitVec.ofInt 40 x &&& 0xFFFF)
    (fits → assemble (.setpx x y l) = some (word 0x1 l x y) ∧
      assemble (.getpx x y) = some (word 0x5 0 x y) ∧ assemble (.touch x y) = some (word 0x8 0 x y)) ∧
    (¬ fits → assemble (.setpx x y l) = none ∧ assemble (.getpx x y) = none ∧
      assemble (.touch x y) = none) ∧
    assemble (.clear l) = some (word 0x2 l 0 0) ∧ assemble .flushf = some (word 0x3 0 0 0) ∧
    assemble .flushc = some (word 0x4 0 0 0) ∧ assemble .getdims = some (word 0x6 0 0 0) ∧
    assemble .getdirty = some (word 0x7 0 0 0) ∧ assemble .trkrst = some (word 0x9 0 0 0)

/-! ### The step, the host port, reset -/

/-- R15, R60, R72, R74: a step takes the next word off its port, decodes it and is `exec` of what it
decodes to, with nothing else around it. That the host's words come from a list is the model's choice
(log 1), and so is that a word on the tracker port, which the second clause puts there whatever the host
still has pending, is a step of its own served before the host's next input (log 2): no rule says it. -/
def Obligations.StepRunsTheDecodedOperation : Prop :=
  (∀ (s : State) (w : Word40) (rest : List HostInput) (i : Instr),
    s.trackerIn = none → s.inputs = .command w :: rest → decode .host w = .ok i →
      step s = exec i { s with inputs := rest }) ∧
  (∀ (s : State) (w : Word40) (i : Instr),
    s.trackerIn = some w → decode .tracker w = .ok i → step s = exec i { s with trackerIn := none })

/-- R142, rendered as a next state (D6, log 6): a host word whose op is 0x0, 0x8, 0x9 or 0xA to 0xF
changes no state, issues no transaction and is answered ILLEGAL, and the block is ready for the next
word. -/
def Obligations.IllegalHostWordsAreAnswered : Prop :=
  ∀ (s : State) (w : Word40) (rest : List HostInput),
    s.trackerIn = none → s.inputs = .command w :: rest →
    (w >>> 36 = 0x0 ∨ 0x8 ≤ w >>> 36) →
      step s = .next { s with inputs := rest, responses := s.responses ++ [0x2000000000] }

/-- R142, R65: the operations of the reserved rows of the opcode table. -/
def Obligations.ReservedOpcodesAnswerIllegal : Prop :=
  ∀ (s : State) (i : Instr),
    i ∈ [Instr.reserved0, .reservedA, .reservedB, .reservedC, .reservedD, .reservedE, .reservedF] →
      exec i s = .next { s with responses := s.responses ++ [0x2000000000] }

/-- R156: between commands the block is idle and holds its state; it starts nothing on its own. -/
def Obligations.IdleBlockHoldsItsState : Prop :=
  ∀ s : State, s.trackerIn = none → s.inputs = [] → step s = .next s

/-- R170, with log 18 for what stands on the ports (it stays): the reset input leaves every byte of FB
0x00 and DR absent, issues no transaction and produces no response; the next command is then taken. -/
def Obligations.ResetInputInitialisesTheBlock : Prop :=
  ∀ (s : State) (rest : List HostInput), s.trackerIn = none → s.inputs = .reset :: rest →
    ∃ t, step s = .next t ∧ (∀ i, i < 8192 → t.fb.read i = 0x00) ∧ t.dr = none ∧
      t = { s with fb := t.fb, dr := t.dr, inputs := rest }

/-- R23, R28: what the state after reset holds. -/
def Obligations.StateAfterReset : Prop :=
  (∀ i, i < 8192 → State.reset.fb.read i = 0x00) ∧ State.reset.dr = none ∧ State.reset.dv = 0

/-- R66: every host command produces exactly one response word; its status is OK, BUS_ERROR or ILLEGAL,
and the two errors carry no detail. -/
def Obligations.OneResponsePerHostCommand : Prop :=
  ∀ (s t : State) (w : Word40) (rest : List HostInput),
    s.trackerIn = none → s.inputs = .command w :: rest → step s = .next t →
      ∃ r : Word40, t.responses = s.responses ++ [r] ∧
        (r >>> 36 = 0x0 ∨ r = 0x1000000000 ∨ r = 0x2000000000)

/-- R131: no operation skips, repeats or reorders a later command. -/
def Obligations.StepsConsumeTheScriptInOrder : Prop :=
  ∀ s t : State, s.trackerIn = none → step s = .next t →
    t.inputs = s.inputs.tail ∧ t.trackerIn = none ∧ t.silent = s.silent

/-! ### The invariant and the whole-machine rules -/

/-- R105, R22: every step keeps FB an array of FB_BYTES bytes in canonical form and the bounds of the
rectangle legal. -/
def Obligations.StepKeepsTheInvariant : Prop :=
  ∀ s t : State, s.Inv → step s = .next t → t.Inv

/-- R105: the invariant holds after reset. -/
def Obligations.ResetMeetsTheInvariant : Prop := State.reset.Inv

/-- R30, R53: only SETPX and CLEAR write FB, only SETPX, TOUCH, TRKRST, FLUSHF and FLUSHC write DR, only
FLUSHF and FLUSHC reach the transport, and only TOUCH and TRKRST produce no response. -/
def Obligations.OperationsWriteOnlyWhatTheyMay : Prop :=
  ∀ (i : Instr) (s t : State), exec i s = .next t →
    (t.fb ≠ s.fb → (∃ x y l, i = .setpx x y l) ∨ ∃ l, i = .clear l) ∧
    (t.dr ≠ s.dr → (∃ x y l, i = .setpx x y l) ∨ (∃ x y, i = .touch x y) ∨ i = .trkrst ∨
      i = .flushf ∨ i = .flushc) ∧
    (t.trace ≠ s.trace ∨ t.answers ≠ s.answers ∨ t.draws ≠ s.draws → i = .flushf ∨ i = .flushc) ∧
    (t.responses = s.responses ↔ (∃ x y, i = .touch x y) ∨ i = .trkrst) ∧
    t.inputs = s.inputs ∧ t.trackerIn = s.trackerIn ∧ t.silent = s.silent

/-- R186: every host operation ends if every transport call returns. -/
def Obligations.EveryHostOperationEnds : Prop :=
  ∀ (i : Instr) (s : State), i.port = .host → s.Inv → (∀ n, s.answered n) → ∃ t, exec i s = .next t

/-! ### Family 1, the Framebuffer Store -/

/-- R81: SETPX and its word. In bounds one nibble is replaced, and only a byte that really changes is
written and touched; out of bounds nothing happens. The response is OK either way. -/
def Obligations.SetpxWritesOneNibble : Prop :=
  ∀ (s : State) (x y : Int) (l : Luma), s.fb.wf = true →
    let idx := x.toNat / 2 + y.toNat * 128
    let old := s.fb.read idx
    let cand : Byte :=
      if x % 2 = 0 then (old &&& 0x0F) ||| (l.setWidth 8 <<< 4) else (old &&& 0xF0) ||| l.setWidth 8
    encode (.setpx x y l) = 0x1000000000 ||| (l.setWidth 40 <<< 32) |||
      ((BitVec.ofInt 40 y &&& 0xFFFF) <<< 16) ||| (BitVec.ofInt 40 x &&& 0xFFFF) ∧
    if 0 ≤ x ∧ x < 256 ∧ 0 ≤ y ∧ y < 64 then
      ∃ t, exec (.setpx x y l) s = .next t ∧
        (∀ i, t.fb.read i = if i = idx then cand else s.fb.read i) ∧
        (cand = old → t.fb = s.fb ∧ t.dr = s.dr) ∧
        (cand ≠ old → t.dr = touchRect s.dr x y) ∧
        t = { s with fb := t.fb, dr := t.dr, responses := s.responses ++ [0x0000000000] }
    else exec (.setpx x y l) s = .next { s with responses := s.responses ++ [0x0000000000] }

/-- R82 (the spec's decision D12): CLEAR and its word. It writes `(luma << 4) | luma` to every byte and
neither reads nor writes DR. -/
def Obligations.ClearFillsEveryByte : Prop :=
  ∀ (s : State) (l : Luma),
    encode (.clear l) = 0x2000000000 ||| (l.setWidth 40 <<< 32) ∧
    ∃ t, exec (.clear l) s = .next t ∧
    (∀ i, i < 8192 → t.fb.read i = (l.setWidth 8 <<< 4) ||| l.setWidth 8) ∧
    t = { s with fb := t.fb, responses := s.responses ++ [0x0000000000] }

/-- R83 (the spec's decision D8): GETPX and its word. It answers the nibble in `aux` and `data[0] = 1`
in bounds, zeros out of bounds, and changes nothing. -/
def Obligations.GetpxReadsOneNibble : Prop :=
  ∀ (s : State) (x y : Int),
    let b := s.fb.read (x.toNat / 2 + y.toNat * 128)
    let luma : BitVec 4 := if x % 2 = 0 then b.extractLsb' 4 4 else b.extractLsb' 0 4
    encode (.getpx x y) = 0x5000000000 ||| ((BitVec.ofInt 40 y &&& 0xFFFF) <<< 16) |||
      (BitVec.ofInt 40 x &&& 0xFFFF) ∧
    exec (.getpx x y) s = .next { s with
      responses := s.responses ++
        [if 0 ≤ x ∧ x < 256 ∧ 0 ≤ y ∧ y < 64 then 0x0#4 ++ luma ++ 0x00000001#32
          else 0x0000000000] }

/-- R84 (the spec's decision D10): GETDIMS and its word. It always answers 0x0400400100 and changes
nothing. -/
def Obligations.GetdimsReportsTheGeometry : Prop :=
  encode .getdims = 0x6000000000 ∧
  ∀ s : State, exec .getdims s = .next { s with responses := s.responses ++ [0x0400400100] }

/-- R88: the round trip. After a SETPX in bounds, GETPX of that pixel answers its luma, GETPX of the
other pixel of the byte answers what it answered before, and every other byte is unchanged. -/
def Obligations.SetpxGetpxRoundTrip : Prop :=
  ∀ (s : State) (x y : Int) (l : Luma), s.fb.wf = true → inBounds x y = true →
    let neighbour := if x % 2 = 0 then x + 1 else x - 1
    ∃ t u before after, exec (.setpx x y l) s = .next t ∧
      exec (.getpx x y) t = .next u ∧ u.responses = t.responses ++ [0x0#4 ++ l ++ 0x00000001#32] ∧
      exec (.getpx neighbour y) s = .next before ∧ exec (.getpx neighbour y) t = .next after ∧
      after.responses.getLast? = before.responses.getLast? ∧
      ∀ i, i ≠ x.toNat / 2 + y.toNat * 128 → t.fb.read i = s.fb.read i

/-- R89: a SETPX in bounds changes its byte exactly when the addressed nibble differs from the luma;
when it does not, nothing is written or touched, so the same SETPX a second time leaves FB and DR alone.
-/
def Obligations.NoChangeNoDirt : Prop :=
  ∀ (s : State) (x y : Int) (l : Luma), s.fb.wf = true → inBounds x y = true →
    let idx := x.toNat / 2 + y.toNat * 128
    let nibble : BitVec 4 :=
      if x % 2 = 0 then (s.fb.read idx).extractLsb' 4 4 else (s.fb.read idx).extractLsb' 0 4
    ∃ t, exec (.setpx x y l) s = .next t ∧
      (t.fb.read idx = s.fb.read idx ↔ nibble = l) ∧
      (nibble = l → t.fb = s.fb ∧ t.dr = s.dr) ∧
      exec (.setpx x y l) t = .next { t with responses := t.responses ++ [0x0000000000] }

/-- R82, R92: after CLEAR every pixel reads the luma of the CLEAR. -/
def Obligations.ClearedPixelsReadTheLuma : Prop :=
  ∀ (s : State) (l : Luma) (x y : Int), inBounds x y = true →
    ∃ t u, exec (.clear l) s = .next t ∧ exec (.getpx x y) t = .next u ∧
      u.responses = s.responses ++ [0x0000000000, 0x0#4 ++ l ++ 0x00000001#32]

/-- R42, R43: the index of an in-bounds pixel is in the array, it determines byte column and row, and
every index is the index of its two pixels. -/
def Obligations.PixelIndexIsABijection : Prop :=
  (∀ x y : Int, inBounds x y = true → pixelIndex x y ≤ 8191 ∧
    pixelIndex x y % 128 = x.toNat / 2 ∧ pixelIndex x y / 128 = y.toNat) ∧
  (∀ i : Nat, i < 8192 →
    inBounds (2 * (i % 128 : Nat)) (i / 128 : Nat) = true ∧
    inBounds (2 * (i % 128 : Nat) + 1) (i / 128 : Nat) = true ∧
    pixelIndex (2 * (i % 128 : Nat)) (i / 128 : Nat) = i ∧
    pixelIndex (2 * (i % 128 : Nat) + 1) (i / 128 : Nat) = i)

/-- R76: DRAW answers OK once per element and issues no transaction, and its out-of-range elements have
no effect on FB or DR: the drawing without them gives the same. -/
def Obligations.DrawDiscardsOutOfRangePixels : Prop :=
  ∀ (s : State) (pixels : List Pixel),
    ∃ t u, execAll (draw pixels) s = .next t ∧
      execAll (draw (pixels.filter fun p => inBounds p.x p.y)) s = .next u ∧
      t.fb = u.fb ∧ t.dr = u.dr ∧ t.trace = s.trace ∧
      t.responses = s.responses ++ List.replicate pixels.length 0x0000000000

/-! ### Family 2, the Change Tracker -/

/-- R101: TOUCH and its word, on an in-bounds point (R110). An absent rectangle becomes the single
point; a present one is widened on at most one side of each axis. Nothing else changes and there is no
response. -/
def Obligations.TouchMergesOnePoint : Prop :=
  ∀ (s : State) (x y : Int), 0 ≤ x ∧ x < 256 ∧ 0 ≤ y ∧ y < 64 →
    let c : Byte := BitVec.ofNat 8 (x.toNat / 2)
    let r : Byte := BitVec.ofNat 8 y.toNat
    encode (.touch x y) = 0x8000000000 ||| ((BitVec.ofInt 40 y &&& 0xFFFF) <<< 16) |||
      (BitVec.ofInt 40 x &&& 0xFFFF) ∧
    ∃ q', exec (.touch x y) s = .next { s with dr := some q' } ∧
      match s.dr with
      | none => q' = ⟨c, c, r, r⟩
      | some q =>
        (if c < q.cmin then q'.cmin = c ∧ q'.cmax = q.cmax
          else if q.cmax < c then q'.cmin = q.cmin ∧ q'.cmax = c
          else q'.cmin = q.cmin ∧ q'.cmax = q.cmax) ∧
        (if r < q.rmin then q'.rmin = r ∧ q'.rmax = q.rmax
          else if q.rmax < r then q'.rmin = q.rmin ∧ q'.rmax = r
          else q'.rmin = q.rmin ∧ q'.rmax = q.rmax)

/-- The model's choice for R110's precondition (log 7): TOUCH outside it is refused by name. -/
def Obligations.TouchOutOfBoundsIsRefused : Prop :=
  ∀ (s : State) (x y : Int), ¬ (0 ≤ x ∧ x < 256 ∧ 0 ≤ y ∧ y < 64) →
    exec (.touch x y) s = .refused .touchOutOfBounds

/-- R102: TRKRST and its word. It makes DR absent and changes nothing else; there is no response. No
operation but TRKRST and a flush that answered OK makes a present rectangle absent. -/
def Obligations.TrkrstForgetsTheRectangle : Prop :=
  encode .trkrst = 0x9000000000 ∧
  (∀ s : State, exec .trkrst s = .next { s with dr := none }) ∧
  ∀ (i : Instr) (s t : State), exec i s = .next t → s.dr ≠ none → t.dr = none →
    i = .trkrst ∨ ((i = .flushf ∨ i = .flushc) ∧ t.responses = s.responses ++ [0x0000000000])

/-- R103 (the spec's decision D9): GETDIRTY and its word. It reports DV in `aux[0]` and the four bounds
in `data`, zeros while absent. -/
def Obligations.GetdirtyReportsTheRectangle : Prop :=
  encode .getdirty = 0x7000000000 ∧
  ∀ s : State, exec .getdirty s = .next { s with
    responses := s.responses ++
      [match s.dr with
        | none => 0x0000000000
        | some q => 0x0#4 ++ 0x1#4 ++ q.cmin ++ q.cmax ++ q.rmin ++ q.rmax] }

/-- R104: on a legal rectangle the one-sided merge is the minimum and the maximum of each axis. -/
def Obligations.TouchIsMinAndMax : Prop :=
  ∀ (s : State) (q : Rect) (x y : Int), s.dr = some q → q.legal = true → inBounds x y = true →
    ∃ q', exec (.touch x y) s = .next { s with dr := some q' } ∧
      q'.cmin.toNat = min q.cmin.toNat (x.toNat / 2) ∧ q'.cmax.toNat = max q.cmax.toNat (x.toNat / 2) ∧
      q'.rmin.toNat = min q.rmin.toNat y.toNat ∧ q'.rmax.toNat = max q.rmax.toNat y.toNat

/-- R106: after any sequence of touches from an absent rectangle, DR is absent if the sequence is empty
and else the exact minimal bounding rectangle of the touched points (it covers each, and each bound is
met by one); the order of the touches does not matter. -/
def Obligations.TouchesGiveTheMinimalBoundingRectangle : Prop :=
  ∀ (s : State) (points points' : List (Int × Int)), s.dr = none →
    (∀ p ∈ points, inBounds p.1 p.2 = true) → points'.Perm points →
    ∃ d, execAll (points.map fun p => .touch p.1 p.2) s = .next { s with dr := d } ∧
      execAll (points'.map fun p => .touch p.1 p.2) s = .next { s with dr := d } ∧
      match d with
      | none => points = []
      | some q =>
        (∀ p ∈ points, q.covers (p.1.toNat / 2) p.2.toNat = true) ∧
        (∃ p ∈ points, q.cmin.toNat = p.1.toNat / 2) ∧ (∃ p ∈ points, q.cmax.toNat = p.1.toNat / 2) ∧
        (∃ p ∈ points, q.rmin.toNat = p.2.toNat) ∧ (∃ p ∈ points, q.rmax.toNat = p.2.toNat)

/-- R107: a byte that drawing has changed lies inside the rectangle, and stays inside it through any
further drawing, even one that changes it back. -/
def Obligations.RectangleCoversEveryChangedByte : Prop :=
  ∀ (s t u : State) (first further : List Pixel) (i : Nat), s.Inv →
    execAll (draw first) s = .next t → execAll (draw further) t = .next u →
    t.fb.read i ≠ s.fb.read i →
      ∃ q, u.dr = some q ∧ q.covers (i % 128) (i / 128) = true

/-- R108: a TOUCH never moves a bound inward. -/
def Obligations.TouchOnlyWidens : Prop :=
  ∀ (s : State) (q : Rect) (x y : Int), s.dr = some q → inBounds x y = true →
    ∃ q', exec (.touch x y) s = .next { s with dr := some q' } ∧
      q'.cmin ≤ q.cmin ∧ q.cmax ≤ q'.cmax ∧ q'.rmin ≤ q.rmin ∧ q.rmax ≤ q'.rmax

/-! ### Family 3, the Flush Engine -/

/-- R123, for this hardware's FULL_CHUNK_BYTES and FULL_FLUSH_RESETS_TRACKER (D18 and D13, logs 11 and
12): FLUSHF and its word. It sends one addressing command for the whole extent, "begin write", and the
whole array as one payload. After full success DR is absent and the response is OK; at the first err it
ends, DR and FB unchanged, and the response is BUS_ERROR. `devCol`, the opcodes and the answers are open
(R14, R122). -/
def Obligations.FlushfSendsTheWholeFramebuffer : Prop :=
  encode .flushf = 0x3000000000 ∧
  ∀ s : State,
    let plan : List Request :=
      [.cmd Config.opAddr [Config.devCol 0, Config.devCol 127, 0, 63], .cmd Config.opBeginWrite [],
        .data ((List.range 8192).map s.fb.read)]
    (s.willSucceed 3 → exec .flushf s = .next { s.advance 3 with
      dr := none
      trace := s.trace ++ allOk plan
      responses := s.responses ++ [0x0000000000] }) ∧
    (∀ k, s.willFailAt 3 k → exec .flushf s = .next { s.advance (k + 1) with
      trace := s.trace ++ failedAt plan k
      responses := s.responses ++ [0x1000000000] })

/-- R124 (the spec's decisions D15, D19): FLUSHC and its word. With DR absent nothing is sent and the
response is OK. Else one addressing command for the rectangle, "begin write", and for each row in
ascending order the slice from byte column cmin to cmax; after full success DR is absent and the
response is OK; at the first err it ends, DR and FB unchanged, and the response is BUS_ERROR. The
rectangle is one the invariant allows (R105). -/
def Obligations.FlushcSendsTheRectangleRowByRow : Prop :=
  encode .flushc = 0x4000000000 ∧
  ∀ s : State,
    (s.dr = none → exec .flushc s = .next { s with responses := s.responses ++ [0x0000000000] }) ∧
    ∀ q : Rect, s.dr = some q → q.legal = true →
      let rows := q.rmax.toNat - q.rmin.toNat + 1
      let plan : List Request :=
        .cmd Config.opAddr [Config.devCol q.cmin, Config.devCol q.cmax, q.rmin, q.rmax] ::
        .cmd Config.opBeginWrite [] ::
        (List.range rows).map fun k => .data
          ((List.range (q.cmax.toNat - q.cmin.toNat + 1)).map fun j =>
            s.fb.read ((q.rmin.toNat + k) * 128 + q.cmin.toNat + j))
      (s.willSucceed (rows + 2) → exec .flushc s = .next { s.advance (rows + 2) with
        dr := none
        trace := s.trace ++ allOk plan
        responses := s.responses ++ [0x0000000000] }) ∧
      (∀ k, s.willFailAt (rows + 2) k → exec .flushc s = .next { s.advance (k + 1) with
        trace := s.trace ++ failedAt plan k
        responses := s.responses ++ [0x1000000000] })

/-- R121, R125, R141, R146: whenever a flush ends, either the response is OK and DR is absent, or the
response is BUS_ERROR and FB and DR are exactly what they were; FB is never written. That DR is absent
after a FLUSHF answered OK rests on FULL_FLUSH_RESETS_TRACKER = true (R123, D13; log 12, a choice). -/
def Obligations.FlushResetsOnlyAfterFullSuccess : Prop :=
  ∀ (s t : State) (i : Instr), i = .flushf ∨ i = .flushc → exec i s = .next t →
    t.fb = s.fb ∧
    ((t.responses = s.responses ++ [0x0000000000] ∧ t.dr = none ∧
        ∃ plan, t.trace = s.trace ++ allOk plan) ∨
      (t.responses = s.responses ++ [0x1000000000] ∧ t.dr = s.dr ∧
        ∃ plan k, k < plan.length ∧ t.trace = s.trace ++ failedAt plan k))

/-- R127: with a clean tracker FLUSHC issues no transaction, changes no state and answers OK; in
particular after a FLUSHC that answered OK. -/
def Obligations.CleanTrackerMakesFlushcFree : Prop :=
  (∀ s : State, s.dr = none →
    exec .flushc s = .next { s with responses := s.responses ++ [0x0000000000] }) ∧
  (∀ s t : State, exec .flushc s = .next t → t.responses = s.responses ++ [0x0000000000] →
    exec .flushc t = .next { t with responses := t.responses ++ [0x0000000000] })

/-- R128: how many transactions a flush issues and how many bytes FLUSHC moves; a flush whose
transaction number k is the first answered err has issued k+1. -/
def Obligations.FlushTransactionCounts : Prop :=
  ∀ s : State,
    (∀ chunk resets, 1 ≤ chunk → s.willSucceed (2 + (8192 + chunk - 1) / chunk) →
      ∃ t, flushFullWith chunk resets s = .next t ∧
        t.trace.length = s.trace.length + (2 + (8192 + chunk - 1) / chunk)) ∧
    (∀ q, s.dr = some q → q.legal = true → s.willSucceed (2 + (q.rmax.toNat - q.rmin.toNat + 1)) →
      ∃ t, exec .flushc s = .next t ∧
        t.trace.length = s.trace.length + (2 + (q.rmax.toNat - q.rmin.toNat + 1)) ∧
        ((t.trace.drop s.trace.length).flatMap Transaction.dataBytes).length =
          (q.cmax.toNat - q.cmin.toNat + 1) * (q.rmax.toNat - q.rmin.toNat + 1)) ∧
    (s.dr = none → ∃ t, exec .flushc s = .next t ∧ t.trace.length = s.trace.length) ∧
    (∀ k, s.willFailAt 3 k →
      ∃ t, exec .flushf s = .next t ∧ t.trace.length = s.trace.length + (k + 1) ∧
        t.trace.getLast?.map Transaction.answer = some .err) ∧
    (∀ q k, s.dr = some q → q.legal = true →
      s.willFailAt (2 + (q.rmax.toNat - q.rmin.toNat + 1)) k →
      ∃ t, exec .flushc s = .next t ∧ t.trace.length = s.trace.length + (k + 1) ∧
        t.trace.getLast?.map Transaction.answer = some .err)

/-- R123 (c), D18: for every FULL_CHUNK_BYTES of at least 1 the payloads of a successful FLUSHF are not
empty and at most that long, their concatenation is the whole array, and TRKRST follows exactly if
FULL_FLUSH_RESETS_TRACKER. -/
def Obligations.ChunksConcatenateToTheFramebuffer : Prop :=
  ∀ (s : State) (chunk : Nat) (resets : Bool), 1 ≤ chunk →
    s.willSucceed (2 + (8192 + chunk - 1) / chunk) →
    ∃ (t : State) (payloads : List (List Byte)), flushFullWith chunk resets s = .next t ∧
      t.trace = s.trace ++ allOk
        (.cmd Config.opAddr [Config.devCol 0, Config.devCol 127, 0, 63] ::
          .cmd Config.opBeginWrite [] :: payloads.map Request.data) ∧
      payloads.flatten = (List.range 8192).map s.fb.read ∧
      (∀ b ∈ payloads, b ≠ [] ∧ b.length ≤ chunk) ∧
      t.dr = (if resets then none else s.dr)

/-- R109, R128: FLUSHC of the largest rectangle sends every byte of FB, in HEIGHT payloads of ROW_BYTES
bytes, the same bytes in the same order as FLUSHF. -/
def Obligations.FullRectangleSendsEveryByte : Prop :=
  ∀ s : State, s.dr = some ⟨0, 127, 0, 63⟩ → s.willSucceed 66 →
    ∃ (t : State) (rows : List (List Byte)), exec .flushc s = .next t ∧
      t.trace.drop (s.trace.length + 2) = allOk (rows.map Request.data) ∧
      rows.length = 64 ∧ (∀ r ∈ rows, r.length = 128) ∧
      rows.flatten = (List.range 8192).map s.fb.read

/-- R129: after a FLUSHC that ended in BUS_ERROR a second FLUSHC sends the whole region again from the
start, rows already delivered too. -/
def Obligations.RetryResendsTheWholeRegion : Prop :=
  ∀ (s : State) (q : Rect) (k : Nat), s.dr = some q → q.legal = true →
    let n := q.rmax.toNat - q.rmin.toNat + 3
    s.willFailAt n k → (s.advance (k + 1)).willSucceed n →
    ∃ t u, exec .flushc s = .next t ∧ t.responses = s.responses ++ [0x1000000000] ∧
      exec .flushc t = .next u ∧ u.trace = t.trace ++ allOk (rectPlan q s.fb) ∧
      u.responses = t.responses ++ [0x0000000000] ∧ u.dr = none ∧ u.fb = s.fb

/-- R123 (a): FLUSHF does not read DR: it sends the same and answers the same whatever DR holds. -/
def Obligations.FlushfDoesNotReadTheRectangle : Prop :=
  ∀ (s : State) (d : Option Rect),
    match exec .flushf s, exec .flushf { s with dr := d } with
    | .next t, .next t' =>
      t'.trace = t.trace ∧ t'.responses = t.responses ∧ t'.fb = t.fb ∧ t'.answers = t.answers ∧
        t'.draws = t.draws
    | .fault r, .fault r' => r' = r
    | _, _ => False

/-- The model's rendering of U16 (log 4), from R186: a transport call that never returns holds the flush
for ever, written as a named fault; and (log 14) bounds R25 does not allow stop FLUSHC by name. -/
def Obligations.WhereFlushesStop : Prop :=
  ∀ s : State,
    (s.neverReturns 3 = true → exec .flushf s = .fault .transportNeverReturns) ∧
    (∀ q, s.dr = some q → q.legal = true →
      s.neverReturns (q.rmax.toNat - q.rmin.toNat + 3) = true →
        exec .flushc s = .fault .transportNeverReturns) ∧
    (∀ q, s.dr = some q → q.legal = false → exec .flushc s = .fault .illegalRectangle)

/-! ### The device mirror and the CLEAR hazard -/

/-- R57, over the ghost of log 25: after a successful FLUSHF the mirror holds FB at every index; after a
successful FLUSHC it holds FB inside the rectangle and is unchanged outside it. -/
def Obligations.SuccessfulFlushesUpdateTheMirror : Prop :=
  ∀ (s : State) (m : Mirror),
    (s.willSucceed 3 → ∃ t, exec .flushf s = .next t ∧
      ∀ i, i < 8192 → Mirror.receive (chunkWindows Config.fullChunkBytes)
        (t.trace.drop s.trace.length) m i = s.fb.read i) ∧
    (∀ q, s.dr = some q → q.legal = true → s.willSucceed (q.rmax.toNat - q.rmin.toNat + 3) →
      ∃ t, exec .flushc s = .next t ∧
        ∀ i, i < 8192 → Mirror.receive (rectWindows q) (t.trace.drop s.trace.length) m i =
          if q.covers (i % 128) (i / 128) then s.fb.read i else m i)

/-- R58, R176, R183, over CLEAR as D12 has it: with DR absent, a CLEAR followed by any drawing of the
luma it left, followed by FLUSHC, sends nothing at all, although every byte of FB may differ from
before. -/
def Obligations.ClearIsInvisibleToFlushc : Prop :=
  ∀ (s : State) (l : Luma) (points : List (Int × Int)), s.dr = none →
    ∃ t u v, exec (.clear l) s = .next t ∧
      execAll (draw (points.map fun p => ⟨p.1, p.2, l⟩)) t = .next u ∧
      exec .flushc u = .next v ∧ v.trace = s.trace ∧ v.dr = none ∧
      v.responses = u.responses ++ [0x0000000000] ∧
      ∀ i, i < 8192 → v.fb.read i = (l.setWidth 8 <<< 4) ||| l.setWidth 8
end

