-- ==== Sys2Proof/Laws/Decode.lean ====
section
/-! SUPPORT. The fields of a packed command word, and the ranges of decoded fields (30_encoding.md R61,
R62, R75). -/

namespace Sys2Proof

theorem coordFits_iff {v : Int} : coordFits v = true ↔ -32768 ≤ v ∧ v ≤ 32767 := by
  simp [coordFits]

/-- A coordinate that fits survives its 16-bit field (R62). -/
theorem toInt_ofInt_of_fits {v : Int} (h : coordFits v = true) : (BitVec.ofInt 16 v).toInt = v := by
  rw [coordFits_iff] at h
  rw [BitVec.toInt_ofInt]
  exact Int.bmod_eq_of_le (by omega) (by omega)

/-- A 16-bit field read as two's complement fits (R62). -/
theorem coordFits_toInt (v : BitVec 16) : coordFits v.toInt = true := by
  rw [coordFits_iff]
  have h1 := BitVec.le_toInt v
  have h2 := BitVec.toInt_lt (x := v)
  omega

theorem fieldOp_pack (op : BitVec 4) (l : Luma) (x y : Int) : fieldOp (packCommand op l x y) = op := by
  refine BitVec.eq_of_getLsbD_eq fun i hi => ?_
  simp only [fieldOp, packCommand, BitVec.getLsbD_extractLsb', BitVec.getLsbD_append]
  simp [hi, show ¬36 + i < 16 by omega, show ¬36 + i - 16 < 16 by omega,
    show ¬36 + i - 16 - 16 < 4 by omega, show 36 + i - 16 - 16 - 4 = i by omega]

theorem fieldLuma_pack (op : BitVec 4) (l : Luma) (x y : Int) :
    fieldLuma (packCommand op l x y) = l := by
  refine BitVec.eq_of_getLsbD_eq fun i hi => ?_
  simp only [fieldLuma, packCommand, BitVec.getLsbD_extractLsb', BitVec.getLsbD_append]
  simp [hi, show ¬32 + i < 16 by omega, show ¬32 + i - 16 < 16 by omega,
    show 32 + i - 16 - 16 = i by omega]

theorem fieldY_pack {op : BitVec 4} {l : Luma} {x y : Int} (h : coordFits y = true) :
    fieldY (packCommand op l x y) = y := by
  have : (packCommand op l x y).extractLsb' 16 16 = BitVec.ofInt 16 y := by
    refine BitVec.eq_of_getLsbD_eq fun i hi => ?_
    simp only [packCommand, BitVec.getLsbD_extractLsb', BitVec.getLsbD_append]
    simp [hi, show ¬16 + i < 16 by omega]
  rw [fieldY, this, toInt_ofInt_of_fits h]

theorem fieldX_pack {op : BitVec 4} {l : Luma} {x y : Int} (h : coordFits x = true) :
    fieldX (packCommand op l x y) = x := by
  have : (packCommand op l x y).extractLsb' 0 16 = BitVec.ofInt 16 x := by
    refine BitVec.eq_of_getLsbD_eq fun i hi => ?_
    simp only [packCommand, BitVec.getLsbD_extractLsb', BitVec.getLsbD_append]
    simp [hi]
  rw [fieldX, this, toInt_ofInt_of_fits h]

theorem fieldX_fits (w : Word40) : coordFits (fieldX w) = true := coordFits_toInt _

theorem fieldY_fits (w : Word40) : coordFits (fieldY w) = true := coordFits_toInt _

/-- A word is its four fields packed. -/
theorem pack_fields (w : Word40) :
    packCommand (fieldOp w) (fieldLuma w) (fieldX w) (fieldY w) = w := by
  refine BitVec.eq_of_getLsbD_eq fun i hi => ?_
  simp only [packCommand, fieldOp, fieldLuma, fieldX, fieldY, BitVec.ofInt_toInt,
    BitVec.getLsbD_append, BitVec.getLsbD_extractLsb']
  by_cases h1 : i < 16
  · simp [h1]
  · by_cases h2 : i - 16 < 16
    · simp [h1, h2, show 16 + (i - 16) = i by omega]
    · by_cases h3 : i - 16 - 16 < 4
      · simp [h1, h2, h3, show 32 + (i - 16 - 16) = i by omega]
      · simp [h1, h2, h3, show i - 16 - 16 - 4 < 4 by omega,
          show 36 + (i - 16 - 16 - 4) = i by omega]

/-- `v & 0xFFFF` in a 40-bit word is the 16-bit field of the integer (R75). -/
theorem mask_coordinate (v : Int) :
    (BitVec.ofInt 40 v &&& 0xFFFF#40) = (BitVec.ofInt 16 v).setWidth 40 := by
  apply BitVec.eq_of_toNat_eq
  rw [BitVec.toNat_and, show (0xFFFF#40).toNat = 2 ^ 16 - 1 from rfl, Nat.and_two_pow_sub_one_eq_mod,
    BitVec.toNat_setWidth, BitVec.toNat_ofInt, BitVec.toNat_ofInt]
  omega

/-- The word of four fields in the spelling of the assembler's formula (R75). -/
theorem pack_word (op : BitVec 4) (l : Luma) (x y : Int) :
    packCommand op l x y = (op.setWidth 40 <<< 36) ||| (l.setWidth 40 <<< 32) |||
      ((BitVec.ofInt 40 y &&& 0xFFFF) <<< 16) ||| (BitVec.ofInt 40 x &&& 0xFFFF) := by
  refine Eq.trans ?_ (congrArg₂ (fun a b : Word40 => (op.setWidth 40 <<< 36) ||| (l.setWidth 40 <<< 32) |||
    (a <<< 16) ||| b) (mask_coordinate y).symm (mask_coordinate x).symm)
  refine BitVec.eq_of_getLsbD_eq fun i hi => ?_
  simp only [packCommand, BitVec.getLsbD_append, BitVec.getLsbD_or, BitVec.getLsbD_shiftLeft,
    BitVec.getLsbD_setWidth]
  by_cases h1 : i < 16
  · simp [h1, hi, show i < 32 by omega, show i < 36 by omega]
  · by_cases h2 : i < 32
    · simp [h1, h2, hi, show i - 16 < 16 by omega, show i - 16 < 40 by omega, show i < 36 by omega,
        BitVec.getLsbD_of_ge (BitVec.ofInt 16 x) i (by omega)]
    · by_cases h3 : i < 36
      · simp [h1, h2, h3, hi, show ¬i - 16 < 16 by omega, show ¬4 ≤ i - 32 by omega,
          show i - 32 < 40 by omega, show i - 16 - 16 = i - 32 by omega,
          BitVec.getLsbD_of_ge (BitVec.ofInt 16 x) i (by omega),
          BitVec.getLsbD_of_ge (BitVec.ofInt 16 y) (i - 16) (by omega)]
      · simp [h1, h2, h3, hi, show ¬i - 16 < 16 by omega, show ¬i - 16 - 16 < 4 by omega,
          show i - 36 < 40 by omega, show i - 16 - 16 - 4 = i - 36 by omega,
          BitVec.getLsbD_of_ge (BitVec.ofInt 16 x) i (by omega),
          BitVec.getLsbD_of_ge (BitVec.ofInt 16 y) (i - 16) (by omega),
          BitVec.getLsbD_of_ge l (i - 32) (by omega)]

/-- The 16 values of an opcode field, one by one: what every case split over opcodes uses. -/
theorem opcode_cases (op : BitVec 4) :
    op = 0x0 ∨ op = 0x1 ∨ op = 0x2 ∨ op = 0x3 ∨ op = 0x4 ∨ op = 0x5 ∨ op = 0x6 ∨ op = 0x7 ∨
      op = 0x8 ∨ op = 0x9 ∨ op = 0xA ∨ op = 0xB ∨ op = 0xC ∨ op = 0xD ∨ op = 0xE ∨ op = 0xF := by
  revert op
  decide

end Sys2Proof
end

