-- ==== Sys2Proof/Laws/Memory.lean ====
section
/-! SUPPORT. The framebuffer's laws: every memory operation keeps the canonical form, a read after a
write, and equal readings are equal data (20_memory.md R52, log 16). -/

namespace Sys2Proof.Machine

@[simp] theorem Memory.read_nil (i : Nat) : Memory.read [] i = 0x00 := rfl

@[simp] theorem Memory.wfFrom_nil (lo : Nat) : Memory.wfFrom lo [] = true := rfl

theorem Memory.wfFrom_cons {lo a : Nat} {b : Byte} {m : Memory} :
    Memory.wfFrom lo ((a, b) :: m) = true ↔
      lo ≤ a ∧ a < Config.fbBytes ∧ b ≠ 0x00 ∧ Memory.wfFrom (a + 1) m = true := by
  simp [Memory.wfFrom, Memory.unlisted, and_assoc]

/-- The canonical form from an index on holds from every lower index on. -/
theorem Memory.wfFrom_mono {lo lo' : Nat} {m : Memory} (h : lo' ≤ lo)
    (hm : Memory.wfFrom lo m = true) : Memory.wfFrom lo' m = true := by
  cases m with
  | nil => rfl
  | cons c m =>
    obtain ⟨a, b⟩ := c
    rw [Memory.wfFrom_cons] at hm ⊢
    exact ⟨by omega, hm.2⟩

/-- An index below the canonical form reads as an unlisted one. -/
theorem Memory.read_below {lo i : Nat} {m : Memory} (hm : Memory.wfFrom lo m = true) (h : i < lo) :
    m.read i = 0x00 := by
  induction m generalizing lo with
  | nil => rfl
  | cons c m ih =>
    obtain ⟨a, b⟩ := c
    rw [Memory.wfFrom_cons] at hm
    rw [Memory.read, if_neg (by omega)]
    exact ih hm.2.2.2 (by omega)

theorem Memory.read_cons_cell (i j : Nat) (v : Byte) (m : Memory) (h : m.read i = 0x00) :
    (Memory.cons i v m).read j = if j = i then v else m.read j := by
  unfold Memory.cons
  by_cases hv : v = Memory.unlisted
  · by_cases hj : j = i
    · simp [hv, hj, h, Memory.unlisted]
    · simp [hv, hj]
  · by_cases hj : j = i
    · simp [hv, hj, Memory.read]
    · simp [hv, hj, Memory.read, Ne.symm hj]

theorem Memory.wfFrom_cons_cell {lo i : Nat} {v : Byte} {m : Memory} (hlo : lo ≤ i)
    (hi : i < Config.fbBytes) (hm : Memory.wfFrom (i + 1) m = true) :
    Memory.wfFrom lo (Memory.cons i v m) = true := by
  unfold Memory.cons
  split
  · exact Memory.wfFrom_mono (by omega) hm
  · exact Memory.wfFrom_cons.2 ⟨hlo, hi, by assumption, hm⟩

/-- MemWrite keeps the canonical form. -/
theorem Memory.wfFrom_write {lo i : Nat} {v : Byte} {m : Memory} (hm : Memory.wfFrom lo m = true)
    (hlo : lo ≤ i) (hi : i < Config.fbBytes) : Memory.wfFrom lo (m.write i v) = true := by
  induction m generalizing lo with
  | nil => exact Memory.wfFrom_cons_cell hlo hi rfl
  | cons c m ih =>
    obtain ⟨a, b⟩ := c
    rw [Memory.wfFrom_cons] at hm
    obtain ⟨h1, h2, h3, h4⟩ := hm
    rw [Memory.write]
    split
    · exact Memory.wfFrom_cons_cell hlo hi (Memory.wfFrom_cons.2 ⟨by omega, h2, h3, h4⟩)
    · split
      · subst i; exact Memory.wfFrom_cons_cell hlo hi h4
      · exact Memory.wfFrom_cons.2 ⟨h1, h2, h3, ih h4 (by omega)⟩

theorem Memory.wf_write {i : Nat} {v : Byte} {m : Memory} (hm : m.wf = true)
    (hi : i < Config.fbBytes) : (m.write i v).wf = true :=
  Memory.wfFrom_write hm (Nat.zero_le i) hi

/-- A read after a MemWrite: the value written at that index, the old reading elsewhere. -/
theorem Memory.read_write_from {lo i : Nat} {v : Byte} {m : Memory} (hm : Memory.wfFrom lo m = true)
    (j : Nat) : (m.write i v).read j = if j = i then v else m.read j := by
  induction m generalizing lo with
  | nil => exact Memory.read_cons_cell i j v [] rfl
  | cons c m ih =>
    obtain ⟨a, b⟩ := c
    have hm' := Memory.wfFrom_cons.1 hm
    rw [Memory.write]
    split
    · next h =>
      exact Memory.read_cons_cell i j v _ (Memory.read_below
        (Memory.wfFrom_cons.2 ⟨le_refl a, hm'.2⟩) h)
    · split
      · next h =>
        subst i
        rw [Memory.read_cons_cell a j v m (Memory.read_below hm'.2.2.2 (by omega)), Memory.read]
        by_cases hj : j = a
        · simp [hj]
        · simp [hj, Ne.symm hj]
      · next h1 h2 =>
        rw [Memory.read, Memory.read, ih hm'.2.2.2]
        by_cases hj : j = i
        · simp [hj, Ne.symm h2]
        · simp [hj]

theorem Memory.read_write {i : Nat} {v : Byte} {m : Memory} (hm : m.wf = true) (j : Nat) :
    (m.write i v).read j = if j = i then v else m.read j :=
  Memory.read_write_from hm j

/-- The cells of a constant stretch, canonical and reading back. -/
theorem Memory.wfFrom_stretch {v : Byte} (hv : v ≠ 0x00) (lo n : Nat)
    (h : lo + n ≤ Config.fbBytes) :
    Memory.wfFrom lo ((List.range' lo n).map fun i => (i, v)) = true := by
  induction n generalizing lo with
  | zero => rfl
  | succ n ih =>
    rw [List.range'_succ, List.map_cons]
    exact Memory.wfFrom_cons.2 ⟨le_refl lo, by omega, hv, ih (lo + 1) (by omega)⟩

theorem Memory.read_stretch (v : Byte) (lo n i : Nat) :
    Memory.read ((List.range' lo n).map fun k => (k, v)) i =
      if lo ≤ i ∧ i < lo + n then v else 0x00 := by
  induction n generalizing lo with
  | zero => simp [show ¬(lo ≤ i ∧ i < lo) by omega]
  | succ n ih =>
    rw [List.range'_succ, List.map_cons, Memory.read, ih]
    by_cases h : lo = i
    · rw [if_pos h, if_pos (by omega)]
    · rw [if_neg h]
      congr 1
      exact propext (by omega)

/-- CLEAR's memory is canonical. -/
theorem Memory.wf_fill (v : Byte) : (Memory.fill v).wf = true := by
  unfold Memory.fill
  split
  · rfl
  · exact Memory.wfFrom_stretch (by assumption) 0 Config.fbBytes (by decide)

/-- CLEAR's memory reads as its value at every index of FB. -/
theorem Memory.read_fill (v : Byte) {i : Nat} (hi : i < Config.fbBytes) :
    (Memory.fill v).read i = v := by
  unfold Memory.fill
  split
  · next h => rw [h]; rfl
  · rw [Memory.read_stretch, if_pos (by omega)]

/-- Two canonical memories that read alike are equal data, from any index on. -/
theorem Memory.ext_from {lo : Nat} {m m' : Memory} (hm : Memory.wfFrom lo m = true)
    (hm' : Memory.wfFrom lo m' = true) (h : ∀ i, m.read i = m'.read i) : m = m' := by
  induction m generalizing lo m' with
  | nil =>
    cases m' with
    | nil => rfl
    | cons c m' =>
      obtain ⟨a, b⟩ := c
      have := Memory.wfFrom_cons.1 hm'
      have ha := h a
      simp [Memory.read] at ha
      exact absurd ha.symm this.2.2.1
  | cons c m ih =>
    obtain ⟨a, b⟩ := c
    have h1 := Memory.wfFrom_cons.1 hm
    cases m' with
    | nil =>
      have ha := h a
      simp [Memory.read] at ha
      exact absurd ha h1.2.2.1
    | cons c' m' =>
      obtain ⟨a', b'⟩ := c'
      have h2 := Memory.wfFrom_cons.1 hm'
      have haa : a = a' := by
        rcases Nat.lt_trichotomy a a' with hlt | heq | hgt
        · have := h a
          rw [Memory.read, if_pos rfl,
            Memory.read_below (Memory.wfFrom_cons.2 ⟨le_refl a', h2.2⟩) hlt] at this
          exact absurd this h1.2.2.1
        · exact heq
        · have := h a'
          rw [Memory.read_below (Memory.wfFrom_cons.2 ⟨le_refl a, h1.2⟩) hgt, Memory.read,
            if_pos rfl] at this
          exact absurd this.symm h2.2.2.1
      subst a'
      have hb : b = b' := by simpa [Memory.read] using h a
      subst b'
      congr 1
      refine ih h1.2.2.2 h2.2.2.2 fun i => ?_
      by_cases hi : i ≤ a
      · rw [Memory.read_below h1.2.2.2 (by omega), Memory.read_below h2.2.2.2 (by omega)]
      · have := h i
        rwa [Memory.read, Memory.read, if_neg (by omega), if_neg (by omega)] at this

/-- Two canonical memories that read alike are equal data. -/
theorem Memory.ext_read {m m' : Memory} (hm : m.wf = true) (hm' : m'.wf = true)
    (h : ∀ i, m.read i = m'.read i) : m = m' :=
  Memory.ext_from hm hm' h

@[simp] theorem Memory.slice_length (m : Memory) (w : Window) : (m.slice w).length = w.length := by
  simp [Memory.slice]

end Sys2Proof.Machine
end

