-- ==== Sys2Proof/Laws/Operands.lean ====
section
/-! SUPPORT. What the operand computations give: the bounds check, the index of an in-bounds pixel, and
packing and unpacking as exact inverses (20_memory.md R42, R43; 40_store.md R86, R87). -/

namespace Sys2Proof.Machine

@[simp] theorem rowBytes_eq : Config.rowBytes = 128 := rfl

@[simp] theorem fbBytes_eq : Config.fbBytes = 8192 := rfl

@[simp] theorem height_eq : Config.height = 64 := rfl

theorem inBounds_iff {x y : Int} :
    inBounds x y = true ↔ 0 ≤ x ∧ x < 256 ∧ 0 ≤ y ∧ y < 64 := by
  simp [inBounds, and_assoc]

theorem inBounds_false_iff {x y : Int} :
    inBounds x y = false ↔ ¬(0 ≤ x ∧ x < 256 ∧ 0 ≤ y ∧ y < 64) := by
  rw [← inBounds_iff, Bool.not_eq_true]

/-- The index of an in-bounds pixel is in the array (R43). -/
theorem pixelIndex_lt {x y : Int} (h : inBounds x y = true) : pixelIndex x y < Config.fbBytes := by
  rw [inBounds_iff] at h
  simp only [pixelIndex, rowBytes_eq, fbBytes_eq]
  omega

/-- The column and the row of an in-bounds pixel's byte (R42). -/
theorem pixelIndex_mod {x y : Int} (h : inBounds x y = true) : pixelIndex x y % 128 = x.toNat / 2 := by
  rw [inBounds_iff] at h
  simp only [pixelIndex, rowBytes_eq]
  omega

theorem pixelIndex_div {x y : Int} (h : inBounds x y = true) : pixelIndex x y / 128 = y.toNat := by
  rw [inBounds_iff] at h
  simp only [pixelIndex, rowBytes_eq]
  omega

/-- The byte column of an in-bounds pixel fits its register (R8, R25). -/
theorem pixelColumn_toNat {x y : Int} (h : inBounds x y = true) :
    (pixelColumn x).toNat = x.toNat / 2 := by
  rw [inBounds_iff] at h
  rw [pixelColumn, BitVec.toNat_ofNat]
  omega

theorem pixelRow_toNat {x y : Int} (h : inBounds x y = true) : (pixelRow y).toNat = y.toNat := by
  rw [inBounds_iff] at h
  rw [pixelRow, BitVec.toNat_ofNat]
  omega

/-- The parity the spec tests on the integer is the one the model tests, in bounds (R90). -/
theorem parity_iff {x : Int} (h : 0 ≤ x) : x % 2 = 0 ↔ x.toNat % 2 = 0 := by omega

/-- Unpacking is the inverse of packing (R87). -/
theorem unpack_pack (b : Byte) (x : Int) (l : Luma) : unpackNibble (packNibble b x l) x = l := by
  unfold unpackNibble packNibble
  split <;> ext i hi <;> simp <;>
    rcases (by omega : i = 0 ∨ i = 1 ∨ i = 2 ∨ i = 3) with rfl | rfl | rfl | rfl <;> simp

/-- Packing keeps the other nibble (R86). -/
theorem unpack_pack_other (b : Byte) (x x' : Int) (l : Luma) (h : x.toNat % 2 ≠ x'.toNat % 2) :
    unpackNibble (packNibble b x l) x' = unpackNibble b x' := by
  unfold unpackNibble packNibble
  by_cases hx : x.toNat % 2 = 0
  · rw [if_pos hx, if_neg (by omega), if_neg (by omega)]
    ext i hi
    rcases (by omega : i = 0 ∨ i = 1 ∨ i = 2 ∨ i = 3) with rfl | rfl | rfl | rfl <;> simp
  · rw [if_neg hx, if_pos (by omega), if_pos (by omega)]
    ext i hi
    rcases (by omega : i = 0 ∨ i = 1 ∨ i = 2 ∨ i = 3) with rfl | rfl | rfl | rfl <;> simp

/-- A byte is its two nibbles. -/
theorem byte_ext {a b : Byte} (h1 : a.extractLsb' 4 4 = b.extractLsb' 4 4)
    (h0 : a.extractLsb' 0 4 = b.extractLsb' 0 4) : a = b := by
  refine BitVec.eq_of_getLsbD_eq fun i _ => ?_
  by_cases h : i < 4
  · simpa [h] using congrArg (fun v : BitVec 4 => v.getLsbD i) h0
  · have := congrArg (fun v : BitVec 4 => v.getLsbD (i - 4)) h1
    simpa [show i - 4 < 4 by omega, show 4 + (i - 4) = i by omega] using this

/-- The candidate equals the old byte exactly when the addressed nibble already holds the luma (R89). -/
theorem pack_eq_iff (b : Byte) (x : Int) (l : Luma) : packNibble b x l = b ↔ unpackNibble b x = l := by
  constructor
  · intro h
    have := unpack_pack b x l
    rwa [h] at this
  · intro h
    subst h
    have h1 := unpack_pack b x (unpackNibble b x)
    by_cases hx : x.toNat % 2 = 0
    · have h3 := unpack_pack_other b x 1 (unpackNibble b x) (by rw [hx]; decide)
      generalize packNibble b x (unpackNibble b x) = p at h1 h3
      simp only [unpackNibble, hx, if_true] at h1
      exact byte_ext h1 h3
    · have h3 := unpack_pack_other b x 0 (unpackNibble b x) (by simpa using hx)
      generalize packNibble b x (unpackNibble b x) = p at h1 h3
      simp only [unpackNibble, hx, if_false] at h1
      exact byte_ext h3 h1

/-- CLEAR's byte holds the luma in both nibbles (R82, R92). -/
theorem unpack_bothNibbles (l : Luma) (x : Int) : unpackNibble (bothNibbles l) x = l := by
  unfold unpackNibble bothNibbles
  split <;> ext i hi <;>
    rcases (by omega : i = 0 ∨ i = 1 ∨ i = 2 ∨ i = 3) with rfl | rfl | rfl | rfl <;> simp

theorem Rect.legal_iff {q : Rect} : q.legal = true ↔
    q.cmin.toNat ≤ q.cmax.toNat ∧ q.cmax.toNat < 128 ∧ q.rmin.toNat ≤ q.rmax.toNat ∧
      q.rmax.toNat < 64 := by
  simp only [Rect.legal, rowBytes_eq, height_eq, Bool.and_eq_true, decide_eq_true_eq, and_assoc]

theorem Rect.covers_iff {q : Rect} {c r : Nat} : q.covers c r = true ↔
    q.cmin.toNat ≤ c ∧ c ≤ q.cmax.toNat ∧ q.rmin.toNat ≤ r ∧ r ≤ q.rmax.toNat := by
  simp [Rect.covers, and_assoc]

@[simp] theorem rectWindows_length (q : Rect) :
    (rectWindows q).length = q.rmax.toNat + 1 - q.rmin.toNat := by
  simp [rectWindows]

end Sys2Proof.Machine
end

