-- ==== Sys2Proof/Laws/Tracker.lean ====
section
/-! SUPPORT. What a touch does to the rectangle: it keeps legal bounds legal, covers the point, and never
gives up what was covered (41_tracker.md R104 to R108). -/

namespace Sys2Proof.Machine

/-- One axis of the merge on a non-empty range is the minimum and the maximum (R104). -/
theorem widen_toNat {lo hi v : Byte} (h : lo.toNat ≤ hi.toNat) :
    (widen lo hi v).1.toNat = min lo.toNat v.toNat ∧
      (widen lo hi v).2.toNat = max hi.toNat v.toNat := by
  simp only [widen, BitVec.lt_def]
  split
  · constructor <;> simp only <;> omega
  · split <;> constructor <;> simp only <;> omega

/-- One axis of the merge never moves a bound inward (R108). -/
theorem widen_le (lo hi v : Byte) :
    (widen lo hi v).1.toNat ≤ lo.toNat ∧ hi.toNat ≤ (widen lo hi v).2.toNat := by
  simp only [widen, BitVec.lt_def]
  split
  · constructor <;> simp only <;> omega
  · split <;> constructor <;> simp only <;> omega

/-- Everything a touch can do to DR, on legal bounds: it answers a legal rectangle that covers the point
and all that was covered, each bound the minimum or the maximum. -/
theorem touchRect_spec {d : Option Rect} {x y : Int} (hd : ∀ q, d = some q → q.legal = true)
    (h : inBounds x y = true) :
    ∃ q', touchRect d x y = some q' ∧ q'.legal = true ∧ q'.covers (x.toNat / 2) y.toNat = true ∧
      (∀ q c r, d = some q → q.covers c r = true → q'.covers c r = true) ∧
      (d = none → q'.cmin.toNat = x.toNat / 2 ∧ q'.cmax.toNat = x.toNat / 2 ∧
        q'.rmin.toNat = y.toNat ∧ q'.rmax.toNat = y.toNat) ∧
      (∀ q, d = some q → q'.cmin.toNat = min q.cmin.toNat (x.toNat / 2) ∧
        q'.cmax.toNat = max q.cmax.toNat (x.toNat / 2) ∧ q'.rmin.toNat = min q.rmin.toNat y.toNat ∧
        q'.rmax.toNat = max q.rmax.toNat y.toNat) := by
  have hc := pixelColumn_toNat h
  have hr := pixelRow_toNat h
  rw [inBounds_iff] at h
  cases d with
  | none =>
    refine ⟨_, rfl, ?_, ?_, ?_, ?_, ?_⟩
    · simp only [Rect.legal_iff, hc, hr]; omega
    · simp only [Rect.covers_iff, hc, hr]; omega
    · intro _ _ _ hq; cases hq
    · intro _; exact ⟨hc, hc, hr, hr⟩
    · intro _ hq; cases hq
  | some q =>
    have hq := Rect.legal_iff.1 (hd q rfl)
    obtain ⟨h1, h2⟩ := widen_toNat (v := pixelColumn x) hq.1
    obtain ⟨h3, h4⟩ := widen_toNat (v := pixelRow y) hq.2.2.1
    rw [hc] at h1 h2
    rw [hr] at h3 h4
    refine ⟨_, rfl, ?_, ?_, ?_, ?_, ?_⟩
    · simp only [Rect.legal_iff, h1, h2, h3, h4]; omega
    · simp only [Rect.covers_iff, h1, h2, h3, h4]; omega
    · intro q' c r hq' hcov
      cases hq'
      simp only [Rect.covers_iff, h1, h2, h3, h4] at hcov ⊢
      omega
    · intro hn; cases hn
    · intro q' hq'
      cases hq'
      exact ⟨h1, h2, h3, h4⟩

/-- A touch keeps legal bounds legal (R105). -/
theorem touchRect_legal {d : Option Rect} {x y : Int} (hd : ∀ q, d = some q → q.legal = true)
    (h : inBounds x y = true) : ∀ q, touchRect d x y = some q → q.legal = true := by
  obtain ⟨q', h1, h2, -⟩ := touchRect_spec hd h
  intro q hq
  rw [h1] at hq
  cases hq
  exact h2

end Sys2Proof.Machine
end

