-- ==== Sys2Proof/Laws/State.lean ====
section
/-! SUPPORT. One lemma per field per named update of the state, so that no proof unfolds an update. -/

namespace Sys2Proof.Machine

variable (s : State)

@[simp] theorem State.withFb_fb (m : Memory) :
    (s.withFb m).fb = m := rfl
@[simp] theorem State.withFb_dr (m : Memory) :
    (s.withFb m).dr = s.dr := rfl
@[simp] theorem State.withFb_inputs (m : Memory) :
    (s.withFb m).inputs = s.inputs := rfl
@[simp] theorem State.withFb_trackerIn (m : Memory) :
    (s.withFb m).trackerIn = s.trackerIn := rfl
@[simp] theorem State.withFb_answers (m : Memory) :
    (s.withFb m).answers = s.answers := rfl
@[simp] theorem State.withFb_silent (m : Memory) :
    (s.withFb m).silent = s.silent := rfl
@[simp] theorem State.withFb_draws (m : Memory) :
    (s.withFb m).draws = s.draws := rfl
@[simp] theorem State.withFb_responses (m : Memory) :
    (s.withFb m).responses = s.responses := rfl
@[simp] theorem State.withFb_trace (m : Memory) :
    (s.withFb m).trace = s.trace := rfl

@[simp] theorem State.withDr_fb (d : Option Rect) :
    (s.withDr d).fb = s.fb := rfl
@[simp] theorem State.withDr_dr (d : Option Rect) :
    (s.withDr d).dr = d := rfl
@[simp] theorem State.withDr_inputs (d : Option Rect) :
    (s.withDr d).inputs = s.inputs := rfl
@[simp] theorem State.withDr_trackerIn (d : Option Rect) :
    (s.withDr d).trackerIn = s.trackerIn := rfl
@[simp] theorem State.withDr_answers (d : Option Rect) :
    (s.withDr d).answers = s.answers := rfl
@[simp] theorem State.withDr_silent (d : Option Rect) :
    (s.withDr d).silent = s.silent := rfl
@[simp] theorem State.withDr_draws (d : Option Rect) :
    (s.withDr d).draws = s.draws := rfl
@[simp] theorem State.withDr_responses (d : Option Rect) :
    (s.withDr d).responses = s.responses := rfl
@[simp] theorem State.withDr_trace (d : Option Rect) :
    (s.withDr d).trace = s.trace := rfl

@[simp] theorem State.touch_fb (x y : Int) :
    (s.touch x y).fb = s.fb := rfl
@[simp] theorem State.touch_dr (x y : Int) :
    (s.touch x y).dr = touchRect s.dr x y := rfl
@[simp] theorem State.touch_inputs (x y : Int) :
    (s.touch x y).inputs = s.inputs := rfl
@[simp] theorem State.touch_trackerIn (x y : Int) :
    (s.touch x y).trackerIn = s.trackerIn := rfl
@[simp] theorem State.touch_answers (x y : Int) :
    (s.touch x y).answers = s.answers := rfl
@[simp] theorem State.touch_silent (x y : Int) :
    (s.touch x y).silent = s.silent := rfl
@[simp] theorem State.touch_draws (x y : Int) :
    (s.touch x y).draws = s.draws := rfl
@[simp] theorem State.touch_responses (x y : Int) :
    (s.touch x y).responses = s.responses := rfl
@[simp] theorem State.touch_trace (x y : Int) :
    (s.touch x y).trace = s.trace := rfl

@[simp] theorem State.trackerReset_fb :
    (s.trackerReset).fb = s.fb := rfl
@[simp] theorem State.trackerReset_dr :
    (s.trackerReset).dr = none := rfl
@[simp] theorem State.trackerReset_inputs :
    (s.trackerReset).inputs = s.inputs := rfl
@[simp] theorem State.trackerReset_trackerIn :
    (s.trackerReset).trackerIn = s.trackerIn := rfl
@[simp] theorem State.trackerReset_answers :
    (s.trackerReset).answers = s.answers := rfl
@[simp] theorem State.trackerReset_silent :
    (s.trackerReset).silent = s.silent := rfl
@[simp] theorem State.trackerReset_draws :
    (s.trackerReset).draws = s.draws := rfl
@[simp] theorem State.trackerReset_responses :
    (s.trackerReset).responses = s.responses := rfl
@[simp] theorem State.trackerReset_trace :
    (s.trackerReset).trace = s.trace := rfl

@[simp] theorem State.respond_fb (st : Status) (a : BitVec 4) (d : BitVec 32) :
    (s.respond st a d).fb = s.fb := rfl
@[simp] theorem State.respond_dr (st : Status) (a : BitVec 4) (d : BitVec 32) :
    (s.respond st a d).dr = s.dr := rfl
@[simp] theorem State.respond_inputs (st : Status) (a : BitVec 4) (d : BitVec 32) :
    (s.respond st a d).inputs = s.inputs := rfl
@[simp] theorem State.respond_trackerIn (st : Status) (a : BitVec 4) (d : BitVec 32) :
    (s.respond st a d).trackerIn = s.trackerIn := rfl
@[simp] theorem State.respond_answers (st : Status) (a : BitVec 4) (d : BitVec 32) :
    (s.respond st a d).answers = s.answers := rfl
@[simp] theorem State.respond_silent (st : Status) (a : BitVec 4) (d : BitVec 32) :
    (s.respond st a d).silent = s.silent := rfl
@[simp] theorem State.respond_draws (st : Status) (a : BitVec 4) (d : BitVec 32) :
    (s.respond st a d).draws = s.draws := rfl
@[simp] theorem State.respond_responses (st : Status) (a : BitVec 4) (d : BitVec 32) :
    (s.respond st a d).responses = s.responses ++ [responseWord st a d] := rfl
@[simp] theorem State.respond_trace (st : Status) (a : BitVec 4) (d : BitVec 32) :
    (s.respond st a d).trace = s.trace := rfl

@[simp] theorem State.raise_fb (st : Status) :
    (s.raise st).fb = s.fb := rfl
@[simp] theorem State.raise_dr (st : Status) :
    (s.raise st).dr = s.dr := rfl
@[simp] theorem State.raise_inputs (st : Status) :
    (s.raise st).inputs = s.inputs := rfl
@[simp] theorem State.raise_trackerIn (st : Status) :
    (s.raise st).trackerIn = s.trackerIn := rfl
@[simp] theorem State.raise_answers (st : Status) :
    (s.raise st).answers = s.answers := rfl
@[simp] theorem State.raise_silent (st : Status) :
    (s.raise st).silent = s.silent := rfl
@[simp] theorem State.raise_draws (st : Status) :
    (s.raise st).draws = s.draws := rfl
@[simp] theorem State.raise_responses (st : Status) :
    (s.raise st).responses = s.responses ++ [responseWord st 0 0] := rfl
@[simp] theorem State.raise_trace (st : Status) :
    (s.raise st).trace = s.trace := rfl

@[simp] theorem State.raiseBusError_fb :
    (s.raiseBusError).fb = s.fb := rfl
@[simp] theorem State.raiseBusError_dr :
    (s.raiseBusError).dr = s.dr := rfl
@[simp] theorem State.raiseBusError_inputs :
    (s.raiseBusError).inputs = s.inputs := rfl
@[simp] theorem State.raiseBusError_trackerIn :
    (s.raiseBusError).trackerIn = s.trackerIn := rfl
@[simp] theorem State.raiseBusError_answers :
    (s.raiseBusError).answers = s.answers := rfl
@[simp] theorem State.raiseBusError_silent :
    (s.raiseBusError).silent = s.silent := rfl
@[simp] theorem State.raiseBusError_draws :
    (s.raiseBusError).draws = s.draws := rfl
@[simp] theorem State.raiseBusError_responses :
    (s.raiseBusError).responses = s.responses ++ [responseWord .busError 0 0] := rfl
@[simp] theorem State.raiseBusError_trace :
    (s.raiseBusError).trace = s.trace := rfl

@[simp] theorem State.raiseIllegal_fb :
    (s.raiseIllegal).fb = s.fb := rfl
@[simp] theorem State.raiseIllegal_dr :
    (s.raiseIllegal).dr = s.dr := rfl
@[simp] theorem State.raiseIllegal_inputs :
    (s.raiseIllegal).inputs = s.inputs := rfl
@[simp] theorem State.raiseIllegal_trackerIn :
    (s.raiseIllegal).trackerIn = s.trackerIn := rfl
@[simp] theorem State.raiseIllegal_answers :
    (s.raiseIllegal).answers = s.answers := rfl
@[simp] theorem State.raiseIllegal_silent :
    (s.raiseIllegal).silent = s.silent := rfl
@[simp] theorem State.raiseIllegal_draws :
    (s.raiseIllegal).draws = s.draws := rfl
@[simp] theorem State.raiseIllegal_responses :
    (s.raiseIllegal).responses = s.responses ++ [responseWord .illegal 0 0] := rfl
@[simp] theorem State.raiseIllegal_trace :
    (s.raiseIllegal).trace = s.trace := rfl

@[simp] theorem State.hardReset_fb :
    (s.hardReset).fb = [] := rfl
@[simp] theorem State.hardReset_dr :
    (s.hardReset).dr = none := rfl
@[simp] theorem State.hardReset_inputs :
    (s.hardReset).inputs = s.inputs := rfl
@[simp] theorem State.hardReset_trackerIn :
    (s.hardReset).trackerIn = s.trackerIn := rfl
@[simp] theorem State.hardReset_answers :
    (s.hardReset).answers = s.answers := rfl
@[simp] theorem State.hardReset_silent :
    (s.hardReset).silent = s.silent := rfl
@[simp] theorem State.hardReset_draws :
    (s.hardReset).draws = s.draws := rfl
@[simp] theorem State.hardReset_responses :
    (s.hardReset).responses = s.responses := rfl
@[simp] theorem State.hardReset_trace :
    (s.hardReset).trace = s.trace := rfl

@[simp] theorem State.advance_fb (n : Nat) :
    (s.advance n).fb = s.fb := rfl
@[simp] theorem State.advance_dr (n : Nat) :
    (s.advance n).dr = s.dr := rfl
@[simp] theorem State.advance_inputs (n : Nat) :
    (s.advance n).inputs = s.inputs := rfl
@[simp] theorem State.advance_trackerIn (n : Nat) :
    (s.advance n).trackerIn = s.trackerIn := rfl
@[simp] theorem State.advance_answers (n : Nat) :
    (s.advance n).answers = s.answers.drop n := rfl
@[simp] theorem State.advance_silent (n : Nat) :
    (s.advance n).silent = s.silent := rfl
@[simp] theorem State.advance_draws (n : Nat) :
    (s.advance n).draws = s.draws + (n - s.answers.length) := rfl
@[simp] theorem State.advance_responses (n : Nat) :
    (s.advance n).responses = s.responses := rfl
@[simp] theorem State.advance_trace (n : Nat) :
    (s.advance n).trace = s.trace := rfl

@[simp] theorem State.record_fb (q : Request) (a : Answer) :
    (s.record q a).fb = s.fb := rfl
@[simp] theorem State.record_dr (q : Request) (a : Answer) :
    (s.record q a).dr = s.dr := rfl
@[simp] theorem State.record_inputs (q : Request) (a : Answer) :
    (s.record q a).inputs = s.inputs := rfl
@[simp] theorem State.record_trackerIn (q : Request) (a : Answer) :
    (s.record q a).trackerIn = s.trackerIn := rfl
@[simp] theorem State.record_answers (q : Request) (a : Answer) :
    (s.record q a).answers = s.answers := rfl
@[simp] theorem State.record_silent (q : Request) (a : Answer) :
    (s.record q a).silent = s.silent := rfl
@[simp] theorem State.record_draws (q : Request) (a : Answer) :
    (s.record q a).draws = s.draws := rfl
@[simp] theorem State.record_responses (q : Request) (a : Answer) :
    (s.record q a).responses = s.responses := rfl
@[simp] theorem State.record_trace (q : Request) (a : Answer) :
    (s.record q a).trace = s.trace ++ [⟨q, a⟩] := rfl

@[simp] theorem State.takeTracker_fb :
    (s.takeTracker).fb = s.fb := rfl
@[simp] theorem State.takeTracker_dr :
    (s.takeTracker).dr = s.dr := rfl
@[simp] theorem State.takeTracker_inputs :
    (s.takeTracker).inputs = s.inputs := rfl
@[simp] theorem State.takeTracker_trackerIn :
    (s.takeTracker).trackerIn = none := rfl
@[simp] theorem State.takeTracker_answers :
    (s.takeTracker).answers = s.answers := rfl
@[simp] theorem State.takeTracker_silent :
    (s.takeTracker).silent = s.silent := rfl
@[simp] theorem State.takeTracker_draws :
    (s.takeTracker).draws = s.draws := rfl
@[simp] theorem State.takeTracker_responses :
    (s.takeTracker).responses = s.responses := rfl
@[simp] theorem State.takeTracker_trace :
    (s.takeTracker).trace = s.trace := rfl

@[simp] theorem State.takeInput_fb (rest : List HostInput) :
    (s.takeInput rest).fb = s.fb := rfl
@[simp] theorem State.takeInput_dr (rest : List HostInput) :
    (s.takeInput rest).dr = s.dr := rfl
@[simp] theorem State.takeInput_inputs (rest : List HostInput) :
    (s.takeInput rest).inputs = rest := rfl
@[simp] theorem State.takeInput_trackerIn (rest : List HostInput) :
    (s.takeInput rest).trackerIn = s.trackerIn := rfl
@[simp] theorem State.takeInput_answers (rest : List HostInput) :
    (s.takeInput rest).answers = s.answers := rfl
@[simp] theorem State.takeInput_silent (rest : List HostInput) :
    (s.takeInput rest).silent = s.silent := rfl
@[simp] theorem State.takeInput_draws (rest : List HostInput) :
    (s.takeInput rest).draws = s.draws := rfl
@[simp] theorem State.takeInput_responses (rest : List HostInput) :
    (s.takeInput rest).responses = s.responses := rfl
@[simp] theorem State.takeInput_trace (rest : List HostInput) :
    (s.takeInput rest).trace = s.trace := rfl

@[simp] theorem State.presentTracker_fb (w : Word40) :
    (s.presentTracker w).fb = s.fb := rfl
@[simp] theorem State.presentTracker_dr (w : Word40) :
    (s.presentTracker w).dr = s.dr := rfl
@[simp] theorem State.presentTracker_inputs (w : Word40) :
    (s.presentTracker w).inputs = s.inputs := rfl
@[simp] theorem State.presentTracker_trackerIn (w : Word40) :
    (s.presentTracker w).trackerIn = some w := rfl
@[simp] theorem State.presentTracker_answers (w : Word40) :
    (s.presentTracker w).answers = s.answers := rfl
@[simp] theorem State.presentTracker_silent (w : Word40) :
    (s.presentTracker w).silent = s.silent := rfl
@[simp] theorem State.presentTracker_draws (w : Word40) :
    (s.presentTracker w).draws = s.draws := rfl
@[simp] theorem State.presentTracker_responses (w : Word40) :
    (s.presentTracker w).responses = s.responses := rfl
@[simp] theorem State.presentTracker_trace (w : Word40) :
    (s.presentTracker w).trace = s.trace := rfl

@[simp] theorem State.presentHost_fb (w : Word40) :
    (s.presentHost w).fb = s.fb := rfl
@[simp] theorem State.presentHost_dr (w : Word40) :
    (s.presentHost w).dr = s.dr := rfl
@[simp] theorem State.presentHost_inputs (w : Word40) :
    (s.presentHost w).inputs = .command w :: s.inputs := rfl
@[simp] theorem State.presentHost_trackerIn (w : Word40) :
    (s.presentHost w).trackerIn = none := rfl
@[simp] theorem State.presentHost_answers (w : Word40) :
    (s.presentHost w).answers = s.answers := rfl
@[simp] theorem State.presentHost_silent (w : Word40) :
    (s.presentHost w).silent = s.silent := rfl
@[simp] theorem State.presentHost_draws (w : Word40) :
    (s.presentHost w).draws = s.draws := rfl
@[simp] theorem State.presentHost_responses (w : Word40) :
    (s.presentHost w).responses = s.responses := rfl
@[simp] theorem State.presentHost_trace (w : Word40) :
    (s.presentHost w).trace = s.trace := rfl

/-- A state is its nine fields. -/
theorem State.ext_fields {s t : State} (h1 : s.fb = t.fb) (h2 : s.dr = t.dr)
    (h3 : s.inputs = t.inputs) (h4 : s.trackerIn = t.trackerIn) (h5 : s.answers = t.answers)
    (h6 : s.silent = t.silent) (h7 : s.draws = t.draws) (h8 : s.responses = t.responses)
    (h9 : s.trace = t.trace) : s = t := by
  cases s; cases t; simp_all

/-- The three response words of R66 that carry no detail. -/
theorem responseWord_ok : responseWord .ok 0#4 0#32 = 0x0000000000#40 := by decide

theorem responseWord_busError : responseWord .busError 0#4 0#32 = 0x1000000000#40 := by decide

theorem responseWord_illegal : responseWord .illegal 0#4 0#32 = 0x2000000000#40 := by decide

end Sys2Proof.Machine
end

