-- ==== Sys2Proof/Laws/Transport.lean ====
section
/-! SUPPORT. What running a flush's transactions does, whatever the answers: it records a prefix, it
uses as many answers, and it touches nothing else (42_flush.md R120, R121, R128). -/

namespace Sys2Proof.Machine

@[simp] theorem State.issue_fst (s : State) (q : Request) : (s.issue q).1 = s.answerAt 0 := rfl

@[simp] theorem State.issue_snd (s : State) (q : Request) :
    (s.issue q).2 = (s.advance 1).record q (s.answerAt 0) := rfl

@[simp] theorem State.answerAt_record (s : State) (q : Request) (a : Answer) (k : Nat) :
    (s.record q a).answerAt k = s.answerAt k := rfl

/-- The answers still to come after some have been used. -/
theorem State.answerAt_advance (s : State) (n k : Nat) :
    (s.advance n).answerAt k = s.answerAt (n + k) := by
  simp only [State.answerAt, State.advance_answers, State.advance_draws, List.getElem?_drop,
    List.length_drop]
  cases hk : s.answers[n + k]? with
  | some a => rfl
  | none =>
    rw [List.getElem?_eq_none_iff] at hk
    simp only
    congr 1
    omega

theorem State.advance_zero (s : State) : s.advance 0 = s := by
  simp [State.advance]

theorem State.advance_advance (s : State) (m n : Nat) :
    (s.advance m).advance n = s.advance (m + n) := by
  simp only [State.advance, List.drop_drop, List.length_drop, State.mk.injEq, true_and, and_true]
  omega

theorem State.record_advance (s : State) (q : Request) (a : Answer) (n : Nat) :
    (s.record q a).advance n = (s.advance n).record q a := rfl

/-- Recording several transactions at once. -/
theorem State.record_trace_append (s : State) (q : Request) (a : Answer) (ts : List Transaction) :
    { s.record q a with trace := (s.record q a).trace ++ ts } =
      { s with trace := s.trace ++ ⟨q, a⟩ :: ts } := by
  simp [State.record]

@[simp] theorem allOk_nil : allOk [] = [] := rfl

@[simp] theorem allOk_cons (q : Request) (qs : List Request) :
    allOk (q :: qs) = ⟨q, .ok⟩ :: allOk qs := rfl

@[simp] theorem allOk_length (qs : List Request) : (allOk qs).length = qs.length := by simp [allOk]

theorem failedAt_zero (q : Request) (qs : List Request) : failedAt (q :: qs) 0 = [⟨q, .err⟩] := by
  simp [failedAt]

theorem failedAt_succ (q : Request) (qs : List Request) (k : Nat) :
    failedAt (q :: qs) (k + 1) = ⟨q, .ok⟩ :: failedAt qs k := by
  simp [failedAt]

theorem failedAt_length {qs : List Request} {k : Nat} (h : k < qs.length) :
    (failedAt qs k).length = k + 1 := by
  induction qs generalizing k with
  | nil => simp at h
  | cons q qs ih =>
    cases k with
    | zero => rfl
    | succ k =>
      rw [failedAt_succ, List.length_cons, ih (by simpa using h)]

/-- All answers ok: every transaction is recorded, that many answers are used, nothing else changes. -/
theorem runRequests_ok {plan : List Request} {s : State}
    (h : ∀ k, k < plan.length → s.answerAt k = .ok) :
    runRequests plan s =
      (.ok, { s.advance plan.length with trace := s.trace ++ allOk plan }) := by
  induction plan generalizing s with
  | nil => simp [runRequests, State.advance_zero]
  | cons q qs ih =>
    have h0 : s.answerAt 0 = .ok := h 0 (by simp)
    have hs : ∀ k, k < qs.length → ((s.advance 1).record q .ok).answerAt k = .ok := by
      intro k hk
      rw [State.answerAt_record, State.answerAt_advance]
      exact h (1 + k) (by simp; omega)
    simp only [runRequests, State.issue_fst, State.issue_snd, h0, ih hs]
    rw [State.record_advance, State.advance_advance, Nat.add_comm 1]
    simp [State.record, State.advance]

/-- First err at number `k`: the transactions up to it are recorded, the last with err, `k + 1` answers
are used, nothing else changes. -/
theorem runRequests_err {plan : List Request} {s : State} {k : Nat} (hk : k < plan.length)
    (hok : ∀ j, j < k → s.answerAt j = .ok) (herr : s.answerAt k = .err) :
    runRequests plan s =
      (.err, { s.advance (k + 1) with trace := s.trace ++ failedAt plan k }) := by
  induction plan generalizing s k with
  | nil => simp at hk
  | cons q qs ih =>
    cases k with
    | zero =>
      simp only [runRequests, State.issue_fst, State.issue_snd, herr, failedAt_zero]
      rfl
    | succ k =>
      have h0 : s.answerAt 0 = .ok := hok 0 (by omega)
      have hs : ∀ j, j < k → ((s.advance 1).record q .ok).answerAt j = .ok := by
        intro j hj
        rw [State.answerAt_record, State.answerAt_advance]
        exact hok (1 + j) (by omega)
      have he : ((s.advance 1).record q .ok).answerAt k = .err := by
        rw [State.answerAt_record, State.answerAt_advance, Nat.add_comm]
        exact herr
      simp only [runRequests, State.issue_fst, State.issue_snd, h0,
        ih (by simpa using hk) hs he, failedAt_succ]
      rw [State.record_advance, State.advance_advance, Nat.add_comm 1]
      simp [State.record, State.advance]

/-- Either all of the next `n` answers are ok or one is the first err. -/
theorem State.answers_cases (s : State) (n : Nat) :
    (∀ k, k < n → s.answerAt k = .ok) ∨
      ∃ k, k < n ∧ (∀ j, j < k → s.answerAt j = .ok) ∧ s.answerAt k = .err := by
  induction n with
  | zero => exact .inl (by omega)
  | succ n ih =>
    rcases ih with h | ⟨k, hk, h⟩
    · cases ha : s.answerAt n with
      | ok =>
        refine .inl fun k hk => ?_
        rcases Nat.lt_succ_iff_lt_or_eq.1 hk with hlt | heq
        · exact h k hlt
        · exact heq ▸ ha
      | err => exact .inr ⟨n, by omega, h, ha⟩
    · exact .inr ⟨k, by omega, h⟩

/-- A flush that succeeds (R123, R124, R125). -/
theorem flushOutcome_ok {s : State} {plan : List Request} {r : Bool}
    (h : s.willSucceed plan.length) :
    flushOutcome s plan r = .next { s.advance plan.length with
      dr := if r then none else s.dr
      trace := s.trace ++ allOk plan
      responses := s.responses ++ [responseWord .ok 0 0] } := by
  obtain ⟨ha, hok⟩ := h
  rw [State.answered] at ha
  simp only [flushOutcome, ha, State.flush, runRequests_ok hok]
  cases r <;> rfl

/-- A flush whose transaction number `k` is the first answered err (R121, R125, R146). -/
theorem flushOutcome_err {s : State} {plan : List Request} {r : Bool} {k : Nat}
    (h : s.willFailAt plan.length k) :
    flushOutcome s plan r = .next { s.advance (k + 1) with
      trace := s.trace ++ failedAt plan k
      responses := s.responses ++ [responseWord .busError 0 0] } := by
  obtain ⟨ha, hk, hok, herr⟩ := h
  rw [State.answered] at ha
  simp only [flushOutcome, ha, State.flush, runRequests_err hk hok herr]
  rfl

/-- Everything a flush can do: it is stuck, it succeeds, or it ends at its first err. -/
theorem flushOutcome_cases (s : State) (plan : List Request) (r : Bool) :
    (s.neverReturns plan.length = true ∧ flushOutcome s plan r = .fault .transportNeverReturns) ∨
      (s.willSucceed plan.length ∧ flushOutcome s plan r = .next { s.advance plan.length with
        dr := if r then none else s.dr
        trace := s.trace ++ allOk plan
        responses := s.responses ++ [responseWord .ok 0 0] }) ∨
      ∃ k, s.willFailAt plan.length k ∧ flushOutcome s plan r = .next { s.advance (k + 1) with
        trace := s.trace ++ failedAt plan k
        responses := s.responses ++ [responseWord .busError 0 0] } := by
  cases hn : s.neverReturns plan.length with
  | true => exact .inl ⟨rfl, by simp [flushOutcome, hn]⟩
  | false =>
    rcases s.answers_cases plan.length with h | ⟨k, hk, hok, herr⟩
    · exact .inr (.inl ⟨⟨hn, h⟩, flushOutcome_ok ⟨hn, h⟩⟩)
    · exact .inr (.inr ⟨k, ⟨hn, hk, hok, herr⟩, flushOutcome_err ⟨hn, hk, hok, herr⟩⟩)

@[simp] theorem payloads_length (fb : Memory) (ws : List Window) :
    (payloads fb ws).length = ws.length := by
  simp [payloads]

@[simp] theorem rectPlan_length (q : Rect) (fb : Memory) :
    (rectPlan q fb).length = (q.rmax.toNat + 1 - q.rmin.toNat) + 2 := by
  simp [rectPlan, rectWindows]

/-- With FULL_CHUNK_BYTES at least FB_BYTES there is one slice, the whole array (R123). -/
theorem chunkWindows_whole : chunkWindows Config.fullChunkBytes = [⟨0, 8192⟩] := by decide

end Sys2Proof.Machine
end

