-- ==== Sys2Proof/Laws/Exec.lean ====
section
/-! SUPPORT. Everything an operation and a step can do, said once: the inversion lemmas that invariants
and whole-machine rules are proved from. -/

namespace Sys2Proof.Machine

/-- A pixel write does nothing, or writes a changed byte and touches its pixel (R81). -/
theorem State.setPixel_cases (s : State) (x y : Int) (l : Luma) :
    (s.setPixel x y l = s ∧
      (inBounds x y = true → unpackNibble (s.fb.read (pixelIndex x y)) x = l)) ∨
      (inBounds x y = true ∧ unpackNibble (s.fb.read (pixelIndex x y)) x ≠ l ∧
        s.setPixel x y l = (s.withFb (s.fb.write (pixelIndex x y)
          (packNibble (s.fb.read (pixelIndex x y)) x l))).touch x y) := by
  unfold State.setPixel
  split
  · next hb =>
    split
    · next h => exact .inl ⟨rfl, fun _ => (pack_eq_iff _ _ _).1 h⟩
    · next h => exact .inr ⟨hb, fun hn => h ((pack_eq_iff _ _ _).2 hn), rfl⟩
  · next hb => exact .inl ⟨rfl, fun h => absurd h hb⟩

/-! A pixel write leaves everything but FB and DR alone. -/

@[simp] theorem State.setPixel_inputs (s : State) (x y : Int) (l : Luma) :
    (s.setPixel x y l).inputs = s.inputs := by
  rcases s.setPixel_cases x y l with ⟨he, -⟩ | ⟨-, -, he⟩ <;> simp [he]

@[simp] theorem State.setPixel_trackerIn (s : State) (x y : Int) (l : Luma) :
    (s.setPixel x y l).trackerIn = s.trackerIn := by
  rcases s.setPixel_cases x y l with ⟨he, -⟩ | ⟨-, -, he⟩ <;> simp [he]

@[simp] theorem State.setPixel_answers (s : State) (x y : Int) (l : Luma) :
    (s.setPixel x y l).answers = s.answers := by
  rcases s.setPixel_cases x y l with ⟨he, -⟩ | ⟨-, -, he⟩ <;> simp [he]

@[simp] theorem State.setPixel_silent (s : State) (x y : Int) (l : Luma) :
    (s.setPixel x y l).silent = s.silent := by
  rcases s.setPixel_cases x y l with ⟨he, -⟩ | ⟨-, -, he⟩ <;> simp [he]

@[simp] theorem State.setPixel_draws (s : State) (x y : Int) (l : Luma) :
    (s.setPixel x y l).draws = s.draws := by
  rcases s.setPixel_cases x y l with ⟨he, -⟩ | ⟨-, -, he⟩ <;> simp [he]

@[simp] theorem State.setPixel_responses (s : State) (x y : Int) (l : Luma) :
    (s.setPixel x y l).responses = s.responses := by
  rcases s.setPixel_cases x y l with ⟨he, -⟩ | ⟨-, -, he⟩ <;> simp [he]

@[simp] theorem State.setPixel_trace (s : State) (x y : Int) (l : Luma) :
    (s.setPixel x y l).trace = s.trace := by
  rcases s.setPixel_cases x y l with ⟨he, -⟩ | ⟨-, -, he⟩ <;> simp [he]

/-- A pixel write keeps FB canonical and the bounds legal (R105). -/
theorem State.setPixel_inv {s : State} (h : s.Inv) (x y : Int) (l : Luma) :
    (s.setPixel x y l).Inv := by
  rcases s.setPixel_cases x y l with ⟨he, -⟩ | ⟨hb, -, he⟩
  · rwa [he]
  · rw [he]
    exact ⟨Memory.wf_write h.1 (pixelIndex_lt hb), touchRect_legal h.2 hb⟩

/-- What a pixel write leaves in FB, for every form of it (R81, R88). -/
theorem State.setPixel_read {s : State} (h : s.fb.wf = true) (x y : Int) (l : Luma) (i : Nat) :
    (s.setPixel x y l).fb.read i =
      if inBounds x y = true ∧ i = pixelIndex x y then packNibble (s.fb.read i) x l
      else s.fb.read i := by
  rcases s.setPixel_cases x y l with ⟨he, hn⟩ | ⟨hb, -, he⟩
  · rw [he]
    split
    · next hi => rw [hi.2, (pack_eq_iff _ _ _).2 (hn hi.1)]
    · rfl
  · rw [he, State.touch_fb, State.withFb_fb, Memory.read_write h]
    by_cases hi : i = pixelIndex x y
    · simp [hb, hi]
    · simp [hi]

/-- The shapes of a next state, over all operations. -/
theorem exec_next_cases {i : Instr} {s t : State} (h : exec i s = .next t) :
    (∃ st a d, t = s.respond st a d ∧ (st = .ok ∨ st = .illegal ∧ a = 0 ∧ d = 0) ∧
      i.port = .host ∧ i ≠ .flushf) ∨
    (∃ x y l, i = .setpx x y l ∧ t = (s.setPixel x y l).respond .ok 0 0) ∨
    (∃ l, i = .clear l ∧ t = (s.withFb (Memory.fill (bothNibbles l))).respond .ok 0 0) ∨
    (∃ x y, i = .touch x y ∧ inBounds x y = true ∧ t = s.touch x y) ∨
    (i = .trkrst ∧ t = s.trackerReset) ∨
    ((i = .flushf ∨ i = .flushc) ∧ ∃ plan,
      (t = { s.advance plan.length with
          dr := none
          trace := s.trace ++ allOk plan
          responses := s.responses ++ [responseWord .ok 0 0] } ∧ s.willSucceed plan.length) ∨
        ∃ k, t = { s.advance (k + 1) with
          trace := s.trace ++ failedAt plan k
          responses := s.responses ++ [responseWord .busError 0 0] } ∧
          s.willFailAt plan.length k) := by
  have flush : ∀ plan, flushOutcome s plan true = .next t →
      ∃ plan, (t = { s.advance plan.length with
          dr := none
          trace := s.trace ++ allOk plan
          responses := s.responses ++ [responseWord .ok 0 0] } ∧ s.willSucceed plan.length) ∨
        ∃ k, t = { s.advance (k + 1) with
          trace := s.trace ++ failedAt plan k
          responses := s.responses ++ [responseWord .busError 0 0] } ∧
          s.willFailAt plan.length k := by
    intro plan hp
    rcases flushOutcome_cases s plan true with ⟨-, he⟩ | ⟨hs, he⟩ | ⟨k, hk, he⟩
    · rw [he] at hp; cases hp
    · rw [he] at hp; cases hp; exact ⟨plan, .inl ⟨rfl, hs⟩⟩
    · rw [he] at hp; cases hp; exact ⟨plan, .inr ⟨k, rfl, hk⟩⟩
  cases i with
  | setpx x y l => cases h; exact .inr (.inl ⟨x, y, l, rfl, rfl⟩)
  | clear l => cases h; exact .inr (.inr (.inl ⟨l, rfl, rfl⟩))
  | flushf => exact .inr (.inr (.inr (.inr (.inr ⟨.inl rfl, flush _ h⟩))))
  | flushc =>
    simp only [exec, execFlushc] at h
    split at h
    · cases h; exact .inl ⟨_, _, _, rfl, .inl rfl, rfl, by simp⟩
    · split at h
      · exact .inr (.inr (.inr (.inr (.inr ⟨.inr rfl, flush _ h⟩))))
      · cases h
  | getpx x y =>
    cases h
    split
    · exact .inl ⟨_, _, _, rfl, .inl rfl, rfl, by simp⟩
    · exact .inl ⟨_, _, _, rfl, .inl rfl, rfl, by simp⟩
  | getdims => cases h; exact .inl ⟨_, _, _, rfl, .inl rfl, rfl, by simp⟩
  | getdirty => cases h; exact .inl ⟨_, _, _, rfl, .inl rfl, rfl, by simp⟩
  | touch x y =>
    simp only [exec, execTouch] at h
    split at h
    · next hb => cases h; exact .inr (.inr (.inr (.inl ⟨x, y, rfl, hb, rfl⟩)))
    · cases h
  | trkrst => cases h; exact .inr (.inr (.inr (.inr (.inl ⟨rfl, rfl⟩))))
  | reserved0 => cases h; exact .inl ⟨_, _, _, rfl, .inr ⟨rfl, rfl, rfl⟩, rfl, by simp⟩
  | reservedA => cases h; exact .inl ⟨_, _, _, rfl, .inr ⟨rfl, rfl, rfl⟩, rfl, by simp⟩
  | reservedB => cases h; exact .inl ⟨_, _, _, rfl, .inr ⟨rfl, rfl, rfl⟩, rfl, by simp⟩
  | reservedC => cases h; exact .inl ⟨_, _, _, rfl, .inr ⟨rfl, rfl, rfl⟩, rfl, by simp⟩
  | reservedD => cases h; exact .inl ⟨_, _, _, rfl, .inr ⟨rfl, rfl, rfl⟩, rfl, by simp⟩
  | reservedE => cases h; exact .inl ⟨_, _, _, rfl, .inr ⟨rfl, rfl, rfl⟩, rfl, by simp⟩
  | reservedF => cases h; exact .inl ⟨_, _, _, rfl, .inr ⟨rfl, rfl, rfl⟩, rfl, by simp⟩

/-- The shapes of a step: idle, reset, an operation of one of the two ports, an illegal host word. -/
theorem step_next_cases {s t : State} (h : step s = .next t) :
    (s.trackerIn = none ∧ s.inputs = [] ∧ t = s) ∨
    (∃ rest, s.trackerIn = none ∧ s.inputs = .reset :: rest ∧ t = (s.takeInput rest).hardReset) ∨
    (∃ w rest i, s.trackerIn = none ∧ s.inputs = .command w :: rest ∧ decodeHost w = .ok i ∧
      exec i (s.takeInput rest) = .next t) ∨
    (∃ w rest r, s.trackerIn = none ∧ s.inputs = .command w :: rest ∧ decodeHost w = .error r ∧
      t = (s.takeInput rest).raiseIllegal) ∨
    (∃ w i, s.trackerIn = some w ∧ decodeTracker w = .ok i ∧ exec i s.takeTracker = .next t) := by
  unfold step fetch at h
  cases ht : s.trackerIn with
  | some w =>
    rw [ht] at h
    cases hd : decodeTracker w with
    | ok i =>
      simp only [fetchTracker, hd] at h
      exact .inr (.inr (.inr (.inr ⟨w, i, rfl, hd, h⟩)))
    | error r => simp only [fetchTracker, hd] at h; cases h
  | none =>
    rw [ht] at h
    cases hi : s.inputs with
    | nil => rw [hi] at h; cases h; exact .inl ⟨rfl, rfl, rfl⟩
    | cons c rest =>
      rw [hi] at h
      cases c with
      | reset => cases h; exact .inr (.inl ⟨rest, rfl, rfl, rfl⟩)
      | command w =>
        cases hd : decodeHost w with
        | ok i =>
          simp only [fetchHost, hd] at h
          exact .inr (.inr (.inl ⟨w, rest, i, rfl, rfl, hd, h⟩))
        | error r =>
          simp only [fetchHost, hd] at h
          cases h
          exact .inr (.inr (.inr (.inl ⟨w, rest, r, rfl, rfl, hd, rfl⟩)))

/-- A run of operations splits at its first. -/
theorem execAll_cons_next {i : Instr} {is : List Instr} {s t : State} (h : exec i s = .next t) :
    execAll (i :: is) s = execAll is t := by
  simp [execAll, h]

end Sys2Proof.Machine
end

