-- ==== Sys2Proof/Laws/PerInstr.lean ====
section
/-! SUPPORT. Per instruction: the assembler's word carries the opcode of the operation's row, and that
opcode belongs to the operation's port (30_encoding.md R63, R75). -/

namespace Sys2Proof.Laws.Opcode

/-- The word's opcode is the row's, and the table's port for it is the operation's. -/
def Statement (i : Instr) : Prop := fieldOp (encode i) = i.opcode ∧ tablePort (encode i) = i.port

/-- From the opcode of the word to its port. -/
theorem of_opcode {i : Instr} (h : fieldOp (encode i) = i.opcode)
    (hp : (if i.opcode = 0x8 ∨ i.opcode = 0x9 then Port.tracker else Port.host) = i.port) :
    Statement i :=
  ⟨h, by rw [tablePort, h]; exact hp⟩

theorem setpx (x y : Int) (l : Luma) : Statement (.setpx x y l) :=
  of_opcode (fieldOp_pack _ _ _ _) (by simp [Instr.opcode, Instr.port])

theorem clear (l : Luma) : Statement (.clear l) :=
  of_opcode (fieldOp_pack _ _ _ _) (by simp [Instr.opcode, Instr.port])

theorem flushf : Statement (.flushf) :=
  of_opcode (fieldOp_pack _ _ _ _) (by simp [Instr.opcode, Instr.port])

theorem flushc : Statement (.flushc) :=
  of_opcode (fieldOp_pack _ _ _ _) (by simp [Instr.opcode, Instr.port])

theorem getpx (x y : Int) : Statement (.getpx x y) :=
  of_opcode (fieldOp_pack _ _ _ _) (by simp [Instr.opcode, Instr.port])

theorem getdims : Statement (.getdims) :=
  of_opcode (fieldOp_pack _ _ _ _) (by simp [Instr.opcode, Instr.port])

theorem getdirty : Statement (.getdirty) :=
  of_opcode (fieldOp_pack _ _ _ _) (by simp [Instr.opcode, Instr.port])

theorem touch (x y : Int) : Statement (.touch x y) :=
  of_opcode (fieldOp_pack _ _ _ _) (by simp [Instr.opcode, Instr.port])

theorem trkrst : Statement (.trkrst) :=
  of_opcode (fieldOp_pack _ _ _ _) (by simp [Instr.opcode, Instr.port])

theorem reserved0 : Statement (.reserved0) :=
  of_opcode (fieldOp_pack _ _ _ _) (by simp [Instr.opcode, Instr.port])

theorem reservedA : Statement (.reservedA) :=
  of_opcode (fieldOp_pack _ _ _ _) (by simp [Instr.opcode, Instr.port])

theorem reservedB : Statement (.reservedB) :=
  of_opcode (fieldOp_pack _ _ _ _) (by simp [Instr.opcode, Instr.port])

theorem reservedC : Statement (.reservedC) :=
  of_opcode (fieldOp_pack _ _ _ _) (by simp [Instr.opcode, Instr.port])

theorem reservedD : Statement (.reservedD) :=
  of_opcode (fieldOp_pack _ _ _ _) (by simp [Instr.opcode, Instr.port])

theorem reservedE : Statement (.reservedE) :=
  of_opcode (fieldOp_pack _ _ _ _) (by simp [Instr.opcode, Instr.port])

theorem reservedF : Statement (.reservedF) :=
  of_opcode (fieldOp_pack _ _ _ _) (by simp [Instr.opcode, Instr.port])

end Sys2Proof.Laws.Opcode
end

