-- ==== Sys2Proof/Tests/Slice0.lean ====
section
/-! SUPPORT. Small tests, their results taken from the vectors of 95_test_vectors.md (V, T, G, F, I, Z), and
for every statement with hypotheses a concrete state and operands that meet them all together. -/

open Sys2Proof Sys2Proof.Machine Host

namespace Sys2Proof.Tests

/-! ### Helpers -/

/-- The state after reset with some framebuffer cells and a rectangle. -/
def holding (fb : Memory) (dr : Option Rect) : State := { State.reset with fb := fb, dr := dr }

/-- The framebuffer of F4. -/
def f4Bytes : Memory := [(645, 0x71), (770, 0xF0), (902, 0x02)]

/-- The state before F4, with the transport's answers. -/
def f4 (answers : List Answer) : State := { holding f4Bytes (some ⟨2, 6, 5, 7⟩) with answers := answers }

/-- The transactions of F4. -/
def f4Plan : List Request :=
  [.cmd Config.opAddr [Config.devCol 2, Config.devCol 6, 5, 7], .cmd Config.opBeginWrite [],
    .data [0x00, 0x00, 0x00, 0x71, 0x00], .data [0xF0, 0x00, 0x00, 0x00, 0x00],
    .data [0x00, 0x00, 0x00, 0x00, 0x02]]

/-- A silent transport with a short script. -/
def silentAfter (answers : List Answer) (dr : Option Rect) : State :=
  { State.reset with dr := dr, answers := answers, silent := true }

/-- The host presents one word, then resets. -/
def presented (w : Word40) (s : State) : State := { s with inputs := [.command w, .reset] }

/-- A word stands on the tracker port. -/
def onTracker (w : Word40) (s : State) : State := { s with trackerIn := some w }

/-- The last response of an outcome. -/
def lastResponse : Outcome State Fault Refusal → Option Word40
  | .next t => t.responses.getLast?
  | .fault _ => none
  | .refused _ => none

/-- The framebuffer, the rectangle and the response of an outcome. -/
def view : Outcome State Fault Refusal → Option (Memory × Option Rect × List Word40)
  | .next t => some (t.fb, t.dr, t.responses)
  | .fault _ => none
  | .refused _ => none

/-- The transactions, the rectangle and the responses of an outcome. -/
def flushView : Outcome State Fault Refusal → Option (List Transaction × Option Rect × List Word40)
  | .next t => some (t.trace, t.dr, t.responses)
  | .fault _ => none
  | .refused _ => none

/-! ### Configuration and well-formedness -/

/-- R8: the constraints every rule assumes. -/
theorem test_config_constraints : Config.bpp = 4 ∧ Config.width % 2 = 0 ∧ 2 ≤ Config.width ∧
    1 ≤ Config.height ∧ Config.rowBytes ≤ 256 ∧ Config.height ≤ 256 ∧ Config.width ≤ 32767 ∧
    1 ≤ Config.fullChunkBytes ∧ Config.fbBytes = 8192 := by decide

theorem test_wf_setpx_x_low : Instr.wf (.setpx (-32769) 0 0) = false := by decide
theorem test_wf_setpx_x_high : Instr.wf (.setpx 32768 0 0) = false := by decide
theorem test_wf_setpx_y_low : Instr.wf (.setpx 0 (-32769) 0) = false := by decide
theorem test_wf_setpx_y_high : Instr.wf (.setpx 0 32768 0) = false := by decide
theorem test_wf_getpx : Instr.wf (.getpx 32768 0) = false ∧ Instr.wf (.getpx 0 (-32769)) = false := by decide
theorem test_wf_touch : Instr.wf (.touch (-32769) 0) = false ∧ Instr.wf (.touch 0 32768) = false := by decide
theorem test_wf_extremes : Instr.wf (.setpx 32767 (-32768) 7) = true := by decide

/-! ### Decoding: words of the vectors and of the opcode map -/

theorem test_decode_setpx : decode .host 0x1C00020007 = .ok (.setpx 7 2 12) := by decide
theorem test_decode_setpx_extremes : decode .host 0x1780007FFF = .ok (.setpx 32767 (-32768) 7) := by decide
theorem test_decode_clear : decode .host 0x2A00000000 = .ok (.clear 10) := by decide
theorem test_decode_flushf : decode .host 0x3000000000 = .ok .flushf := by decide
theorem test_decode_flushc : decode .host 0x4FFFFFFFFF = .ok .flushc := by decide
theorem test_decode_getpx : decode .host 0x50FFFFFFFF = .ok (.getpx (-1) (-1)) := by decide
theorem test_decode_getdims : decode .host 0x6ABCDEF123 = .ok .getdims := by decide
theorem test_decode_getdirty : decode .host 0x7123456789 = .ok .getdirty := by decide
theorem test_decode_touch : decode .tracker 0x800007000D = .ok (.touch 13 7) := by decide
theorem test_decode_trkrst : decode .tracker 0x9000000000 = .ok .trkrst := by decide
theorem test_decode_reserved0 : decode .host 0x0000000000 = .ok .reserved0 := by decide
theorem test_decode_reservedA : decode .host 0xA000000000 = .ok .reservedA := by decide
theorem test_decode_reservedB : decode .host 0xB000000000 = .ok .reservedB := by decide
theorem test_decode_reservedC : decode .host 0xC000000000 = .ok .reservedC := by decide
theorem test_decode_reservedD : decode .host 0xD000000000 = .ok .reservedD := by decide
theorem test_decode_reservedE : decode .host 0xE000000000 = .ok .reservedE := by decide
theorem test_decode_reservedF : decode .host 0xFFFFFFFFFF = .ok .reservedF := by decide
theorem test_decode_host_touch : decode .host 0x8000050005 = .error (.trackerOnly 8) := by decide
theorem test_decode_host_trkrst : decode .host 0x9000000000 = .error (.trackerOnly 9) := by decide
theorem test_decode_tracker_other : decode .tracker 0x1500000000 = .error (.notOnTracker 1) := by decide
theorem test_encode_p4 : encode (.setpx (-1) 0 7) = 0x170000FFFF ∧ encode (.getpx 256 63) = 0x50003F0100 := by
  decide
theorem test_table_word_touch : decodeTableWord 40 0x8000280032 = some (.touch 50 40) := by decide
theorem test_table_word_clear : decodeTableWord 40 0x27DEADBEEF = some (.clear 7) := by decide

/-! ### The assembler (R75, R76) -/

theorem test_assemble_setpx :
    assembleLine "SETPX -1, 0, 7 ; negative".toList = some [0x170000FFFF] := by decide
theorem test_assemble_draw : assembleLine "DRAW (100, 30, 1), (300, 10, 9)".toList =
    some [0x11001E0064, 0x19000A012C] := by decide
theorem test_assemble_refuses_coordinate : assembleLine "GETPX 40000, 0".toList = none := by decide
/-- Log 26: a blank separates tokens and never joins them; a comment-only line is no operation. -/
theorem test_assemble_blanks : assembleLine "CLEAR 1 5".toList = none ∧
    assembleLine "GETPX - 1, 0".toList = none ∧
    assembleLine "  SETPX  -1 , 0 ,7 ".toList = some [0x170000FFFF] ∧
    assembleLine "DRAW ( 100, 30, 1 ) , (300,10,9) ".toList = some [0x11001E0064, 0x19000A012C] ∧
    assembleLine " ; a comment".toList = some [] := by decide

theorem test_assemble_refuses_luma : assembleLine "CLEAR 16".toList = none := by decide

/-! ### One step of each operation -/

/-- V2: odd x, the high nibble kept, the point touched; and P5 step 5: a byte written back to zero leaves
the list and stays dirty. -/
theorem test_setpx_writes : view (exec (.setpx 1 0 3) (holding [(0, 0x50)] none)) =
      some ([(0, 0x53)], some ⟨0, 0, 0, 0⟩, [0x0000000000]) ∧
    view (exec (.setpx 6 2 0) (holding [(259, 0x10)] (some ⟨3, 3, 2, 2⟩))) =
      some ([], some ⟨3, 3, 2, 2⟩, [0x0000000000]) := by decide

/-- V13: a negative x is discarded; it is neither 65535 nor 255. -/
theorem test_setpx_discards : view (step ((holding [] none).withFetchWord 40 0x170000FFFF)) =
    some ([], none, [0x0000000000]) := by decide

/-- V25: CLEAR 0 leaves every byte 0x00 and the rectangle as it was. -/
theorem test_clear_zero : view (exec (.clear 0) (holding f4Bytes (some ⟨3, 3, 1, 1⟩))) =
    some ([], some ⟨3, 3, 1, 1⟩, [0x0000000000]) := by decide

/-- V28: the byte of CLEAR 10. -/
theorem test_clear_byte : bothNibbles 10 = 0xAA := by decide

/-- V17: the high nibble. -/
theorem test_getpx_high : lastResponse (exec (.getpx 0 0) (holding [(0, 0x53)] none)) =
    some 0x0500000001 := by decide

/-- V21: out of bounds, although index 128 holds a byte. -/
theorem test_getpx_out_of_bounds : lastResponse (exec (.getpx 256 0) (holding [(128, 0x77)] none)) =
    some 0x0000000000 := by decide

/-- V24: unused fields are ignored. -/
theorem test_getdims : lastResponse (step (State.reset.withFetchWord 40 0x6ABCDEF123)) =
    some 0x0400400100 := by decide

/-- G3v: cmin, cmax, rmin, rmax from the high byte down. -/
theorem test_getdirty : lastResponse (exec .getdirty (holding [] (some ⟨2, 6, 5, 7⟩))) =
    some 0x0102060507 := by decide

/-- G2v: the point at the origin differs from "nothing dirty" in `aux` alone. -/
theorem test_getdirty_origin : lastResponse (exec .getdirty (holding [] (some ⟨0, 0, 0, 0⟩))) =
    some 0x0100000000 := by decide

/-- T6: column min and row max in one call, from the tracker port, without a response. -/
theorem test_touch_left_and_down :
    view (step ((holding [] (some ⟨50, 50, 30, 30⟩)).withFetchWord 40 0x8000280032)) =
      some ([], some ⟨25, 50, 30, 40⟩, []) := by decide

/-- T7: column max and row min in one call. -/
theorem test_touch_right_and_up : view (exec (.touch 150 20) (holding [] (some ⟨25, 50, 30, 40⟩))) =
    some ([], some ⟨25, 75, 20, 40⟩, []) := by decide

/-- T10. -/
theorem test_trkrst : view (exec .trkrst (holding [] (some ⟨2, 6, 5, 7⟩))) = some ([], none, []) := by decide

/-- F4: three rows, ascending, then the tracker is reset. -/
theorem test_flushc_success : flushView (exec .flushc (f4 (List.replicate 5 .ok))) =
    some (allOk f4Plan, none, [0x0000000000]) := rfl

/-- F7: the second row is answered err. -/
theorem test_flushc_error : flushView (exec .flushc (f4 [.ok, .ok, .ok, .err])) =
    some (allOk (f4Plan.take 3) ++ [⟨.data [0xF0, 0x00, 0x00, 0x00, 0x00], .err⟩], some ⟨2, 6, 5, 7⟩,
      [0x1000000000]) := rfl

/-- F12: "begin write" is answered err; the rectangle stays. -/
theorem test_flushf_error :
    flushView (exec .flushf { holding [] (some ⟨3, 3, 2, 2⟩) with answers := [.ok, .err] }) =
      some ([⟨.cmd Config.opAddr [Config.devCol 0, Config.devCol 127, 0, 63], .ok⟩,
        ⟨.cmd Config.opBeginWrite [], .err⟩], some ⟨3, 3, 2, 2⟩, [0x1000000000]) := rfl

/-- F14: the slices for FULL_CHUNK_BYTES = 3000. -/
theorem test_flushf_chunks : chunkWindowsFrom 3000 4 0 = [⟨0, 3000⟩, ⟨3000, 3000⟩, ⟨6000, 2192⟩] := by decide

theorem test_reserved0 : lastResponse (step (State.reset.withFetchWord 40 0x0000000000)) =
    some 0x2000000000 := by decide
theorem test_reservedA : lastResponse (step (State.reset.withFetchWord 40 0xA000000000)) =
    some 0x2000000000 := by decide
theorem test_reservedB : lastResponse (step (State.reset.withFetchWord 40 0xB000000000)) =
    some 0x2000000000 := by decide
theorem test_reservedC : lastResponse (step (State.reset.withFetchWord 40 0xC000000000)) =
    some 0x2000000000 := by decide
theorem test_reservedD : lastResponse (step (State.reset.withFetchWord 40 0xD000000000)) =
    some 0x2000000000 := by decide
theorem test_reservedE : lastResponse (step (State.reset.withFetchWord 40 0xE000000000)) =
    some 0x2000000000 := by decide
theorem test_reservedF : lastResponse (step (State.reset.withFetchWord 40 0xFFFFFFFFFF)) =
    some 0x2000000000 := by decide

/-- I3: TOUCH on the host port is answered ILLEGAL and does not widen DR. -/
theorem test_host_touch_is_illegal :
    view (step (presented 0x8000050005 (holding [] (some ⟨5, 5, 5, 5⟩)))) =
      some ([], some ⟨5, 5, 5, 5⟩, [0x2000000000]) := by decide

/-- Z1: reset without a response. -/
theorem test_reset_input :
    view (step { holding [(0, 0xFF)] (some ⟨2, 6, 5, 7⟩) with inputs := [.reset] }) = some ([], none, []) := by
  decide

/-! ### Witnesses: every statement with hypotheses has an input that meets them -/

theorem witness_DecodeOfEncodeIsTheOperation : (Instr.setpx (-32768) 32767 15).wf = true := by decide

theorem witness_EncodeOfDecodeKeepsTheUsedBits :
    decode .host 0x5F7FFF8000 = .ok (.getpx (-32768) 32767) := by decide

theorem witness_UnusedFieldsAreIgnored : (0x27DEADBEEF#40 : Word40) >>> 36 = 0x2 ∧
    (0x27DEADBEEF#40 : Word40) &&& 0xFF00000000 = 0x2700000000#40 &&& 0xFF00000000 := by decide

theorem witness_DecodedOperationsFitAndBelongToTheirPort :
    decode .tracker 0x80003F00FF = .ok (.touch 255 63) := by decide

theorem witness_AssemblerEmitsTheWordOrRefuses :
    ((-32768 : Int) ≤ -32768 ∧ (-32768 : Int) ≤ 32767 ∧ (-32768 : Int) ≤ 32767 ∧ (32767 : Int) ≤ 32767) ∧
    ¬ ((-32768 : Int) ≤ 32768 ∧ (32768 : Int) ≤ 32767) := by decide

theorem witness_StepRunsTheDecodedOperation_host :
    (presented 0x4000000000 State.reset).trackerIn = none ∧
    (presented 0x4000000000 State.reset).inputs = .command 0x4000000000 :: [.reset] ∧
    decode .host 0x4000000000 = .ok .flushc := by decide

theorem witness_StepRunsTheDecodedOperation_tracker :
    (onTracker 0x9000000000 State.reset).trackerIn = some 0x9000000000 ∧
    decode .tracker 0x9000000000 = .ok .trkrst := by decide

theorem witness_IllegalHostWordsAreAnswered :
    (presented 0x8000050005 State.reset).trackerIn = none ∧
    (presented 0x8000050005 State.reset).inputs = .command 0x8000050005 :: [.reset] ∧
    (0x8 : Word40) ≤ 0x8000050005#40 >>> 36 ∧ (0x0#40 : Word40) >>> 36 = 0x0 := by decide

theorem witness_ReservedOpcodesAnswerIllegal : Instr.reservedF ∈
    [Instr.reserved0, .reservedA, .reservedB, .reservedC, .reservedD, .reservedE, .reservedF] := by decide

theorem witness_IdleBlockHoldsItsState : (f4 []).trackerIn = none ∧ (f4 []).inputs = [] := by decide

theorem witness_ResetInputInitialisesTheBlock :
    ({ f4 [] with inputs := [.reset, .reset] } : State).trackerIn = none ∧
    ({ f4 [] with inputs := [.reset, .reset] } : State).inputs = .reset :: [.reset] := by decide

theorem witness_OneResponsePerHostCommand :
    (presented 0x7000000000 (f4 [])).trackerIn = none ∧
    (presented 0x7000000000 (f4 [])).inputs = .command 0x7000000000 :: [.reset] ∧
    ∃ t, step (presented 0x7000000000 (f4 [])) = .next t := ⟨rfl, rfl, _, rfl⟩

theorem witness_StepsConsumeTheScriptInOrder :
    (presented 0x7000000000 (f4 [])).trackerIn = none ∧
    ∃ t, step (presented 0x7000000000 (f4 [])) = .next t := ⟨rfl, _, rfl⟩

theorem f4_inv (answers : List Answer) : (f4 answers).Inv := by
  refine ⟨(by decide : f4Bytes.wf = true), fun q h => ?_⟩
  cases h
  decide

theorem witness_StepKeepsTheInvariant : (presented 0x1A003F00FF (f4 [])).Inv ∧
    ∃ t, step (presented 0x1A003F00FF (f4 [])) = .next t := ⟨f4_inv [], _, rfl⟩

theorem witness_OperationsWriteOnlyWhatTheyMay :
    ∃ t, exec .flushc (f4 [.ok, .err]) = .next t ∧ t.trace ≠ (f4 [.ok, .err]).trace :=
  ⟨_, rfl, fun h => absurd (congrArg List.length h) (by decide)⟩

theorem witness_OperationsWriteOnlyWhatTheyMay_store :
    ∃ t, exec (.setpx 7 2 12) State.reset = .next t ∧ t.fb ≠ State.reset.fb ∧ t.dr ≠ State.reset.dr :=
  ⟨_, rfl, by decide, by decide⟩

theorem witness_OperationsWriteOnlyWhatTheyMay_silent :
    ∃ t, exec (.touch 0 63) State.reset = .next t ∧ t.responses = State.reset.responses := ⟨_, rfl, rfl⟩

theorem witness_EveryHostOperationEnds : Instr.flushc.port = .host ∧ (f4 []).Inv ∧
    ∀ n, (f4 []).answered n := ⟨rfl, f4_inv [], fun _ => rfl⟩

theorem witness_SetpxWritesOneNibble_changed : (f4 []).fb.wf = true ∧
    (0 ≤ (255 : Int) ∧ (255 : Int) < 256 ∧ 0 ≤ (63 : Int) ∧ (63 : Int) < 64) ∧
    ((f4 []).fb.read 8191 &&& 0xF0) ||| (10#4).setWidth 8 ≠ (f4 []).fb.read 8191 := by decide

theorem witness_SetpxWritesOneNibble_unchanged : (f4 []).fb.wf = true ∧
    ((f4 []).fb.read 645 &&& 0x0F) ||| ((7#4).setWidth 8 <<< 4) = (f4 []).fb.read 645 := by decide

theorem witness_SetpxWritesOneNibble_out_of_bounds : (f4 []).fb.wf = true ∧
    ¬ (0 ≤ (256 : Int) ∧ (256 : Int) < 256 ∧ 0 ≤ (63 : Int) ∧ (63 : Int) < 64) := by decide

theorem witness_SetpxGetpxRoundTrip : (f4 []).fb.wf = true ∧ inBounds 255 63 = true := by decide

theorem witness_NoChangeNoDirt : (f4 []).fb.wf = true ∧ inBounds 10 5 = true ∧
    (BitVec.extractLsb' 4 4 ((f4 []).fb.read 645)) = 7#4 ∧
    (BitVec.extractLsb' 4 4 ((f4 []).fb.read 645)) ≠ 8#4 := by decide

theorem witness_ClearedPixelsReadTheLuma : inBounds 0 63 = true ∧ inBounds 255 0 = true := by decide

theorem witness_PixelIndexIsABijection : inBounds 255 63 = true ∧ 8191 < 8192 := by decide

theorem witness_TouchMergesOnePoint_absent : (holding [] none).dr = none ∧
    (0 ≤ (255 : Int) ∧ (255 : Int) < 256 ∧ 0 ≤ (63 : Int) ∧ (63 : Int) < 64) := by decide

theorem witness_TouchMergesOnePoint_present : (f4 []).dr = some ⟨2, 6, 5, 7⟩ ∧
    (0 ≤ (0 : Int) ∧ (0 : Int) < 256 ∧ 0 ≤ (0 : Int) ∧ (0 : Int) < 64) := by decide

theorem witness_TouchOutOfBoundsIsRefused :
    ¬ (0 ≤ (0 : Int) ∧ (0 : Int) < 256 ∧ 0 ≤ (64 : Int) ∧ (64 : Int) < 64) ∧
    ¬ (0 ≤ (-1 : Int) ∧ (-1 : Int) < 256 ∧ 0 ≤ (0 : Int) ∧ (0 : Int) < 64) := by decide

theorem witness_TrkrstForgetsTheRectangle :
    ∃ t, exec .flushc (f4 (List.replicate 5 .ok)) = .next t ∧
      (f4 (List.replicate 5 .ok)).dr ≠ none ∧ t.dr = none := ⟨_, rfl, by decide, rfl⟩

theorem witness_TouchIsMinAndMax : (f4 []).dr = some ⟨2, 6, 5, 7⟩ ∧ (⟨2, 6, 5, 7⟩ : Rect).legal = true ∧
    inBounds 255 0 = true := by decide

theorem witness_TouchesGiveTheMinimalBoundingRectangle :
    State.reset.dr = none ∧
    (∀ p ∈ ([(10, 5), (13, 7), (4, 6)] : List (Int × Int)), inBounds p.1 p.2 = true) ∧
    ([(13, 7), (10, 5), (4, 6)] : List (Int × Int)).Perm [(10, 5), (13, 7), (4, 6)] :=
  ⟨rfl, by decide, List.Perm.swap _ _ _⟩

theorem witness_RectangleCoversEveryChangedByte :
    State.reset.Inv ∧ ∃ t u, execAll (draw [⟨7, 2, 12⟩]) State.reset = .next t ∧
      execAll (draw [⟨7, 2, 0⟩]) t = .next u ∧ t.fb.read 259 ≠ State.reset.fb.read 259 :=
  ⟨⟨rfl, fun _ h => nomatch h⟩, _, _, rfl, rfl, by decide⟩

theorem witness_TouchOnlyWidens : (f4 []).dr = some ⟨2, 6, 5, 7⟩ ∧ inBounds 255 63 = true := by decide

theorem witness_FlushfSendsTheWholeFramebuffer :
    (f4 [.ok, .ok, .ok]).willSucceed 3 ∧ (f4 [.ok, .ok, .err]).willFailAt 3 2 ∧
    (f4 [.err]).willFailAt 3 0 := ⟨⟨rfl, by decide⟩, ⟨rfl, by decide⟩, ⟨rfl, by decide⟩⟩

theorem witness_FlushcSendsTheRectangleRowByRow :
    State.reset.dr = none ∧ (⟨2, 6, 5, 7⟩ : Rect).legal = true ∧
    (f4 (List.replicate 5 .ok)).dr = some ⟨2, 6, 5, 7⟩ ∧ (f4 (List.replicate 5 .ok)).willSucceed 5 ∧
    (f4 [.ok, .ok, .ok, .ok, .err]).willFailAt 5 4 :=
  ⟨rfl, by decide, rfl, ⟨rfl, by decide⟩, ⟨rfl, by decide⟩⟩

theorem witness_FlushResetsOnlyAfterFullSuccess :
    (∃ t, exec .flushc (f4 (List.replicate 5 .ok)) = .next t) ∧ ∃ t, exec .flushf (f4 [.err]) = .next t :=
  ⟨⟨_, rfl⟩, _, rfl⟩

theorem witness_CleanTrackerMakesFlushcFree : State.reset.dr = none ∧
    ∃ t, exec .flushc (f4 (List.replicate 5 .ok)) = .next t ∧
      t.responses = (f4 (List.replicate 5 .ok)).responses ++ [0x0000000000] := ⟨rfl, _, rfl, rfl⟩

theorem witness_FlushTransactionCounts :
    1 ≤ 3000 ∧ (f4 (List.replicate 5 .ok)).willSucceed (2 + (8192 + 3000 - 1) / 3000) ∧
    (f4 (List.replicate 5 .ok)).dr = some ⟨2, 6, 5, 7⟩ ∧ (⟨2, 6, 5, 7⟩ : Rect).legal = true ∧
    (f4 (List.replicate 5 .ok)).willSucceed (2 + (7 - 5 + 1)) ∧ State.reset.dr = none ∧
    (f4 [.ok, .ok, .err]).willFailAt 3 2 ∧ (f4 [.ok, .ok, .ok, .ok, .err]).willFailAt (2 + (7 - 5 + 1)) 4 :=
  ⟨by decide, ⟨rfl, by decide⟩, rfl, by decide, ⟨rfl, by decide⟩, rfl, ⟨rfl, by decide⟩, ⟨rfl, by decide⟩⟩

theorem witness_ChunksConcatenateToTheFramebuffer :
    1 ≤ 8192 ∧ (f4 (List.replicate 3 .ok)).willSucceed (2 + (8192 + 8192 - 1) / 8192) :=
  ⟨by decide, rfl, by decide⟩

theorem witness_FullRectangleSendsEveryByte :
    ({ holding [] (some ⟨0, 127, 0, 63⟩) with answers := List.replicate 66 .ok } : State).dr =
      some ⟨0, 127, 0, 63⟩ ∧
    ({ holding [] (some ⟨0, 127, 0, 63⟩) with answers := List.replicate 66 .ok } : State).willSucceed 66 :=
  ⟨rfl, rfl, by decide⟩

theorem witness_RetryResendsTheWholeRegion :
    (f4 [.ok, .ok, .ok, .err, .ok, .ok, .ok, .ok, .ok]).dr = some ⟨2, 6, 5, 7⟩ ∧
    (⟨2, 6, 5, 7⟩ : Rect).legal = true ∧
    (f4 [.ok, .ok, .ok, .err, .ok, .ok, .ok, .ok, .ok]).willFailAt 5 3 ∧
    ((f4 [.ok, .ok, .ok, .err, .ok, .ok, .ok, .ok, .ok]).advance 4).willSucceed 5 :=
  ⟨rfl, by decide, ⟨rfl, by decide⟩, ⟨rfl, by decide⟩⟩

theorem witness_WhereFlushesStop :
    (silentAfter [.ok, .ok] none).neverReturns 3 = true ∧
    (silentAfter [.ok] (some ⟨2, 6, 5, 7⟩)).dr = some ⟨2, 6, 5, 7⟩ ∧ (⟨2, 6, 5, 7⟩ : Rect).legal = true ∧
    (silentAfter [.ok] (some ⟨2, 6, 5, 7⟩)).neverReturns 5 = true ∧
    (holding [] (some ⟨0, 128, 0, 0⟩)).dr = some ⟨0, 128, 0, 0⟩ ∧
    (⟨0, 128, 0, 0⟩ : Rect).legal = false := by decide

theorem witness_SuccessfulFlushesUpdateTheMirror :
    (f4 (List.replicate 3 .ok)).willSucceed 3 ∧ (f4 (List.replicate 5 .ok)).dr = some ⟨2, 6, 5, 7⟩ ∧
    (⟨2, 6, 5, 7⟩ : Rect).legal = true ∧ (f4 (List.replicate 5 .ok)).willSucceed 5 :=
  ⟨⟨rfl, by decide⟩, rfl, by decide, ⟨rfl, by decide⟩⟩

theorem witness_ClearIsInvisibleToFlushc : (holding [(5, 0x12)] none).dr = none := by decide

end Sys2Proof.Tests
end

section
/-! The fetch and the step, case by case (00_scope.md R15; 30_encoding.md R60, R72, R74), and O8. -/

namespace Sys2Proof.Machine

/-- Whatever the host has pending, a word on the tracker port is what is fetched (log 2). -/
theorem fetch_of_trackerIn {s : State} {w : Word40} (h : s.trackerIn = some w) :
    fetch s = fetchTracker w s := by
  simp only [fetch, h]

/-- With the tracker port empty, a command word at the head of the host's list is fetched (log 1). -/
theorem fetch_of_command {s : State} {w : Word40} {rest : List HostInput}
    (ht : s.trackerIn = none) (hi : s.inputs = .command w :: rest) :
    fetch s = fetchHost w rest s := by
  simp only [fetch, ht, hi]

theorem fetchTracker_of_decode {w : Word40} {i : Instr} (h : decode .tracker w = .ok i) (s : State) :
    fetchTracker w s = .run i s.takeTracker := by
  rw [decode] at h
  simp only [fetchTracker, h]

theorem fetchHost_of_decode {w : Word40} {i : Instr} (h : decode .host w = .ok i)
    (rest : List HostInput) (s : State) :
    fetchHost w rest s = .run i (s.takeInput rest) := by
  rw [decode] at h
  simp only [fetchHost, h]

/-- A fetched operation is run from the state its port was left in, with nothing around it (R15). -/
theorem step_of_fetch_run {s s' : State} {i : Instr} (h : fetch s = .run i s') :
    step s = exec i s' := by
  simp only [step, h]

theorem step_of_command {s : State} {w : Word40} {rest : List HostInput} {i : Instr}
    (ht : s.trackerIn = none) (hi : s.inputs = .command w :: rest) (hd : decode .host w = .ok i) :
    step s = exec i (s.takeInput rest) :=
  step_of_fetch_run ((fetch_of_command ht hi).trans (fetchHost_of_decode hd rest s))

theorem step_of_trackerIn {s : State} {w : Word40} {i : Instr}
    (ht : s.trackerIn = some w) (hd : decode .tracker w = .ok i) :
    step s = exec i s.takeTracker :=
  step_of_fetch_run ((fetch_of_trackerIn ht).trans (fetchTracker_of_decode hd s))

/-- Settles O8: one clause per port, the port's fetch followed by `step_of_fetch_run`. -/
theorem stepRunsTheDecodedOperation : Obligations.StepRunsTheDecodedOperation :=
  ⟨fun _ _ _ _ => step_of_command, fun _ _ _ => step_of_trackerIn⟩

end Sys2Proof.Machine
end

section
/-! What an operation may write and what it leaves alone, one lemma per column of the access table
(10_state.md R30, R53), and O18; the state after reset (R23, R28), O13. -/

namespace Sys2Proof.Machine

/-- The tracker port carries the two internal operations and no other (R72). -/
theorem port_eq_tracker_iff (i : Instr) :
    i.port = .tracker ↔ (∃ x y, i = .touch x y) ∨ i = .trkrst := by
  cases i <;> simp [Instr.port]

/-- The FB column of R30. -/
theorem exec_fb_eq_or {i : Instr} {s t : State} (h : exec i s = .next t) :
    t.fb = s.fb ∨ (∃ x y l, i = .setpx x y l) ∨ ∃ l, i = .clear l := by
  rcases exec_next_cases h with ⟨_, _, _, rfl, -⟩ | ⟨x, y, l, hi, -⟩ | ⟨l, hi, -⟩ |
    ⟨_, _, -, -, rfl⟩ | ⟨-, rfl⟩ | ⟨-, _, ⟨rfl, -⟩ | ⟨_, rfl, -⟩⟩
  · exact .inl rfl
  · exact .inr (.inl ⟨x, y, l, hi⟩)
  · exact .inr (.inr ⟨l, hi⟩)
  · exact .inl rfl
  · exact .inl rfl
  · exact .inl rfl
  · exact .inl rfl

/-- The DR column of R30. -/
theorem exec_dr_eq_or {i : Instr} {s t : State} (h : exec i s = .next t) :
    t.dr = s.dr ∨ (∃ x y l, i = .setpx x y l) ∨ (∃ x y, i = .touch x y) ∨ i = .trkrst ∨
      i = .flushf ∨ i = .flushc := by
  rcases exec_next_cases h with ⟨_, _, _, rfl, -⟩ | ⟨x, y, l, hi, -⟩ | ⟨_, -, rfl⟩ |
    ⟨x, y, hi, -⟩ | ⟨hi, -⟩ | ⟨hi, -⟩
  · exact .inl rfl
  · exact .inr (.inl ⟨x, y, l, hi⟩)
  · exact .inl rfl
  · exact .inr (.inr (.inl ⟨x, y, hi⟩))
  · exact .inr (.inr (.inr (.inl hi)))
  · exact .inr (.inr (.inr (.inr hi)))

/-- The transport column of R30: no transaction is recorded and no answer is taken but by a flush. -/
theorem exec_transport_eq_or {i : Instr} {s t : State} (h : exec i s = .next t) :
    (t.trace = s.trace ∧ t.answers = s.answers ∧ t.draws = s.draws) ∨ i = .flushf ∨ i = .flushc := by
  rcases exec_next_cases h with ⟨_, _, _, rfl, -⟩ | ⟨_, _, _, -, rfl⟩ | ⟨_, -, rfl⟩ |
    ⟨_, _, -, -, rfl⟩ | ⟨-, rfl⟩ | ⟨hi, -⟩
  · exact .inl ⟨rfl, rfl, rfl⟩
  · exact .inl (by simp)
  · exact .inl ⟨rfl, rfl, rfl⟩
  · exact .inl ⟨rfl, rfl, rfl⟩
  · exact .inl ⟨rfl, rfl, rfl⟩
  · exact .inr hi

/-- The response column of R30: a host operation appends one word, a tracker operation none. -/
theorem exec_responses {i : Instr} {s t : State} (h : exec i s = .next t) :
    (i.port = .host ∧ ∃ r, t.responses = s.responses ++ [r]) ∨
      (i.port = .tracker ∧ t.responses = s.responses) := by
  rcases exec_next_cases h with ⟨_, _, _, rfl, -, hp, -⟩ | ⟨_, _, _, rfl, rfl⟩ | ⟨_, rfl, rfl⟩ |
    ⟨_, _, rfl, -, rfl⟩ | ⟨rfl, rfl⟩ | ⟨hi, _, hr⟩
  · exact .inl ⟨hp, _, rfl⟩
  · exact .inl ⟨rfl, _, by rw [State.respond_responses, State.setPixel_responses]⟩
  · exact .inl ⟨rfl, _, rfl⟩
  · exact .inr ⟨rfl, rfl⟩
  · exact .inr ⟨rfl, rfl⟩
  · have hp : i.port = .host := by rcases hi with rfl | rfl <;> rfl
    rcases hr with ⟨rfl, -⟩ | ⟨_, rfl, -⟩
    · exact .inl ⟨hp, _, rfl⟩
    · exact .inl ⟨hp, _, rfl⟩

/-- The silent operations are those of the tracker port (R30, R72). -/
theorem exec_responses_eq_iff {i : Instr} {s t : State} (h : exec i s = .next t) :
    t.responses = s.responses ↔ i.port = .tracker := by
  rcases exec_responses h with ⟨hp, r, hr⟩ | ⟨hp, hr⟩
  · simp [hp, hr]
  · simp [hp, hr]

/-- What waits on the host and tracker ports stays as it is through any operation (R131), and so does
whether the transport falls silent. -/
theorem exec_keeps_ports {i : Instr} {s t : State} (h : exec i s = .next t) :
    t.inputs = s.inputs ∧ t.trackerIn = s.trackerIn ∧ t.silent = s.silent := by
  rcases exec_next_cases h with ⟨_, _, _, rfl, -⟩ | ⟨_, _, _, -, rfl⟩ | ⟨_, -, rfl⟩ |
    ⟨_, _, -, -, rfl⟩ | ⟨-, rfl⟩ | ⟨-, _, ⟨rfl, -⟩ | ⟨_, rfl, -⟩⟩
  · exact ⟨rfl, rfl, rfl⟩
  · simp
  · exact ⟨rfl, rfl, rfl⟩
  · exact ⟨rfl, rfl, rfl⟩
  · exact ⟨rfl, rfl, rfl⟩
  · exact ⟨rfl, rfl, rfl⟩
  · exact ⟨rfl, rfl, rfl⟩

/-- Settles O18: the columns of the access table, each by its own lemma. -/
theorem operationsWriteOnlyWhatTheyMay : Obligations.OperationsWriteOnlyWhatTheyMay := by
  intro i s t h
  refine ⟨(exec_fb_eq_or h).resolve_left, (exec_dr_eq_or h).resolve_left, fun hne => ?_,
    (exec_responses_eq_iff h).trans (port_eq_tracker_iff i), exec_keeps_ports h⟩
  refine (exec_transport_eq_or h).resolve_left fun ⟨htrace, hanswers, hdraws⟩ => ?_
  simp [htrace, hanswers, hdraws] at hne

/-- Settles O13: no cell is listed, so every byte reads as the reset value. -/
theorem stateAfterReset : Obligations.StateAfterReset :=
  ⟨fun i _ => Memory.read_nil i, rfl, rfl⟩

end Sys2Proof.Machine
end

section
/-! The byte index of a pixel and its inverse (20_memory.md R42, R43), and O27. -/

namespace Sys2Proof.Machine

/-- The two pixels of a byte, told apart by `d`, are in bounds (R43). -/
theorem inBounds_of_index {i : Nat} (hi : i < 8192) {d : Int} (hd : d = 0 ∨ d = 1) :
    inBounds (2 * (i % 128 : Nat) + d) (i / 128 : Nat) = true := by
  rw [inBounds_iff]
  omega

/-- Both pixels of a byte have that byte's index (R42, R43). -/
theorem pixelIndex_of_index (i : Nat) {d : Int} (hd : d = 0 ∨ d = 1) :
    pixelIndex (2 * (i % 128 : Nat) + d) (i / 128 : Nat) = i := by
  simp only [pixelIndex, rowBytes_eq]
  omega

/-- Settles O27: the laws of the index of an in-bounds pixel, and both pixels of each byte. -/
theorem pixelIndexIsABijection : Obligations.PixelIndexIsABijection := by
  refine ⟨fun x y h => ⟨Nat.le_of_lt_succ (pixelIndex_lt h), pixelIndex_mod h, pixelIndex_div h⟩,
    fun i hi => ⟨?_, inBounds_of_index hi (.inr rfl), ?_, pixelIndex_of_index i (.inr rfl)⟩⟩
  · simpa only [add_zero] using inBounds_of_index hi (d := 0) (.inl rfl)
  · simpa only [add_zero] using pixelIndex_of_index i (d := 0) (.inl rfl)

end Sys2Proof.Machine
end

section
/-! What the device mirror holds after a successful flush (20_memory.md R55, R57; log 25), and O47. -/

namespace Sys2Proof.Machine

/-- Index `i` lies in the slice. -/
def Window.holds (w : Window) (i : Nat) : Bool :=
  decide (w.start ≤ i) && decide (i < w.start + w.length)

theorem Window.holds_iff {w : Window} {i : Nat} :
    w.holds i = true ↔ w.start ≤ i ∧ i < w.start + w.length := by
  simp [Window.holds]

/-- A slice of FB, stored where it came from, is FB there; the rest of the mirror stays. -/
theorem Mirror.store_slice (m : Mirror) (fb : Memory) (w : Window) (i : Nat) :
    m.store w.start (fb.slice w) i = if w.holds i then fb.read i else m i := by
  simp only [Mirror.store, Memory.slice_length, Window.holds_iff]
  split
  · next h =>
    have hlt : i - w.start < w.length := by omega
    simp [Memory.slice, List.getD, hlt, Nat.add_sub_of_le h.1]
  · rfl

/-- A command leaves the mirror alone, and the slices still to come (R55). -/
@[simp] theorem Mirror.receive_cmd (ws : List Window) (op : Byte) (ps : List Byte) (a : Answer)
    (ts : List Transaction) (m : Mirror) :
    Mirror.receive ws (⟨.cmd op ps, a⟩ :: ts) m = Mirror.receive ws ts m := by
  rw [Mirror.receive]

/-- The payloads of some slices, all answered ok: the mirror holds FB on the slices and is unchanged
off them (R57). -/
theorem Mirror.receive_payloads (fb : Memory) (ws : List Window) (m : Mirror) (i : Nat) :
    Mirror.receive ws (allOk (payloads fb ws)) m i =
      if ws.any (·.holds i) then fb.read i else m i := by
  induction ws generalizing m with
  | nil => rfl
  | cons w ws ih =>
    calc Mirror.receive (w :: ws) (allOk (payloads fb (w :: ws))) m i
      _ = Mirror.receive ws (allOk (payloads fb ws)) (m.store w.start (fb.slice w)) i := rfl
      _ = if ws.any (·.holds i) then fb.read i else if w.holds i then fb.read i else m i := by
        rw [ih, Mirror.store_slice]
      _ = if (w :: ws).any (·.holds i) then fb.read i else m i := by
        cases hw : w.holds i <;> simp [hw]

/-- A successful flush of some slices of FB brings the mirror up to date on them and nowhere else. -/
theorem flushOutcome_mirror {s : State} {c0 c1 r0 r1 : Byte} {ws : List Window} {n : Nat}
    (hn : ws.length + 2 = n) (h : s.willSucceed n) (r : Bool) (m : Mirror) :
    ∃ t, flushOutcome s (addressingCommand c0 c1 r0 r1 :: beginWrite :: payloads s.fb ws) r = .next t ∧
      ∀ i, Mirror.receive ws (t.trace.drop s.trace.length) m i =
        if ws.any (·.holds i) then s.fb.read i else m i := by
  refine ⟨_, flushOutcome_ok (by simpa [hn] using h), fun i => ?_⟩
  rw [List.drop_left, allOk_cons, allOk_cons, addressingCommand, beginWrite, Mirror.receive_cmd,
    Mirror.receive_cmd, Mirror.receive_payloads]

/-- The one slice of FLUSHF holds every index of FB (R123). -/
theorem chunkWindows_whole_holds {i : Nat} (hi : i < 8192) :
    (chunkWindows Config.fullChunkBytes).any (·.holds i) = true := by
  rw [chunkWindows_whole]
  simp [Window.holds, hi]

/-- The slices of FLUSHC hold exactly the bytes whose column and row the rectangle covers (R26, R124). -/
theorem rectWindows_holds {q : Rect} (hq : q.legal = true) (i : Nat) :
    (rectWindows q).any (·.holds i) = q.covers (i % 128) (i / 128) := by
  obtain ⟨hc, hc', hr, -⟩ := Rect.legal_iff.1 hq
  rw [Bool.eq_iff_iff, Rect.covers_iff]
  simp only [rectWindows, rowBytes_eq, List.any_map, List.any_eq_true, List.mem_range,
    Function.comp_apply, Window.holds_iff]
  constructor
  · rintro ⟨k, hk, hlo, hhi⟩
    have hrow : i / 128 = q.rmin.toNat + k := by omega
    omega
  · rintro ⟨h1, h2, h3, h4⟩
    exact ⟨i / 128 - q.rmin.toNat, by omega, by omega, by omega⟩

/-- FLUSHC on legal bounds runs the rectangle's transactions (R124). -/
theorem exec_flushc_of_legal {s : State} {q : Rect} (hdr : s.dr = some q) (hq : q.legal = true) :
    exec .flushc s = flushOutcome s (rectPlan q s.fb) true := by
  simp only [exec, execFlushc, hdr, hq, if_true]

/-- Settles O47: `flushOutcome_mirror` for the slices of each flush. -/
theorem successfulFlushesUpdateTheMirror : Obligations.SuccessfulFlushesUpdateTheMirror := by
  refine fun s m => ⟨fun h => ?_, fun q hdr hq h => ?_⟩
  · obtain ⟨t, ht, hm⟩ := flushOutcome_mirror (congrArg (·.length + 2) chunkWindows_whole) h _ m
    exact ⟨t, ht, fun i hi => by rw [hm, if_pos (chunkWindows_whole_holds hi)]⟩
  · have hr := (Rect.legal_iff.1 hq).2.2.1
    have hn : (rectWindows q).length + 2 = q.rmax.toNat - q.rmin.toNat + 3 := by
      rw [rectWindows_length]
      omega
    obtain ⟨t, ht, hm⟩ := flushOutcome_mirror hn h true m
    exact ⟨t, (exec_flushc_of_legal hdr hq).trans ht, fun i _ => by rw [hm, rectWindows_holds hq]⟩

end Sys2Proof.Machine
end

section
/-! Drawing what FB already holds, and FLUSHC on a clean tracker: the CLEAR hazard (20_memory.md R58;
70_reset_and_hazards.md R176, R183), and O48. -/

namespace Sys2Proof.Machine

/-- FB already holds the pixel's luma, if the pixel is in bounds; out of bounds nothing is asked. -/
def Memory.shows (fb : Memory) (p : Pixel) : Prop :=
  inBounds p.x p.y = true → unpackNibble (fb.read (pixelIndex p.x p.y)) p.x = p.luma

/-- Writing a pixel that FB already shows changes nothing (R89). -/
theorem State.setPixel_of_shown {s : State} {p : Pixel} (h : s.fb.shows p) :
    s.setPixel p.x p.y p.luma = s := by
  rcases s.setPixel_cases p.x p.y p.luma with ⟨he, -⟩ | ⟨hb, hne, -⟩
  · exact he
  · exact absurd (h hb) hne

/-- Drawing pixels that FB already shows changes nothing but the responses (R89, R76). -/
theorem execAll_draw_of_shown {pixels : List Pixel} {s : State}
    (h : ∀ p ∈ pixels, s.fb.shows p) :
    ∃ r, execAll (draw pixels) s = .next { s with responses := r } := by
  induction pixels generalizing s with
  | nil => exact ⟨s.responses, rfl⟩
  | cons p ps ih =>
    have hp : exec (.setpx p.x p.y p.luma) s = .next (s.respond .ok 0 0) := by
      rw [exec, execSetpx, State.setPixel_of_shown (h p List.mem_cons_self)]
    obtain ⟨r, hr⟩ := ih (s := s.respond .ok 0 0) fun p' hp' => h p' (List.mem_cons_of_mem _ hp')
    exact ⟨r, (execAll_cons_next hp).trans hr⟩

/-- CLEAR leaves every pixel showing its luma (R82, R92). -/
theorem Memory.fill_shows (x y : Int) (l : Luma) :
    (Memory.fill (bothNibbles l)).shows ⟨x, y, l⟩ := by
  intro hb
  rw [Memory.read_fill _ (pixelIndex_lt hb), unpack_bothNibbles]

/-- FLUSHC with a clean tracker answers OK and does nothing else (R127). -/
theorem exec_flushc_of_clean {s : State} (h : s.dr = none) :
    exec .flushc s = .next (s.respond .ok 0 0) := by
  simp only [exec, execFlushc, h]

/-- Settles O48: the drawing finds every pixel as CLEAR left it, so DR is still absent at the FLUSHC. -/
theorem clearIsInvisibleToFlushc : Obligations.ClearIsInvisibleToFlushc := by
  intro s l points hdr
  have hshown : ∀ p ∈ points.map fun p => (⟨p.1, p.2, l⟩ : Pixel),
      (Memory.fill (bothNibbles l)).shows p :=
    List.forall_mem_map.2 fun p _ => Memory.fill_shows p.1 p.2 l
  obtain ⟨r, hu⟩ := execAll_draw_of_shown
    (s := (s.withFb (Memory.fill (bothNibbles l))).respond .ok 0 0) hshown
  exact ⟨_, _, _, rfl, hu, exec_flushc_of_clean hdr, rfl, hdr, rfl,
    fun i hi => Memory.read_fill (bothNibbles l) hi⟩

end Sys2Proof.Machine
end

section
/-! The decoder as one equivalence on a word's four fields (30_encoding.md R61 to R65, R74): O2, O6, O1
and O5. -/

namespace Sys2Proof

/-- The operands of `i` stand in the word's fields; fields `i` ignores may hold anything (R62, R64). -/
def Instr.operandsIn (i : Instr) (w : Word40) : Prop :=
  match i with
  | .setpx x y l => fieldX w = x ∧ fieldY w = y ∧ fieldLuma w = l
  | .clear l => fieldLuma w = l
  | .getpx x y => fieldX w = x ∧ fieldY w = y
  | .touch x y => fieldX w = x ∧ fieldY w = y
  | _ => True

/-- A word with the opcode and the operands of an operation decodes to it on its port. -/
theorem decode_of_fields {i : Instr} {w : Word40} (hop : fieldOp w = i.opcode)
    (hargs : i.operandsIn w) : decode i.port w = .ok i := by
  cases i with
  | setpx x y l =>
    obtain ⟨rfl, rfl, rfl⟩ := hargs
    simp [decode, Instr.port, decodeHost, hop, Instr.opcode]
  | clear l =>
    obtain rfl := hargs
    simp [decode, Instr.port, decodeHost, hop, Instr.opcode]
  | getpx x y =>
    obtain ⟨rfl, rfl⟩ := hargs
    simp [decode, Instr.port, decodeHost, hop, Instr.opcode]
  | touch x y =>
    obtain ⟨rfl, rfl⟩ := hargs
    simp [decode, Instr.port, decodeTracker, hop, Instr.opcode]
  | trkrst => simp [decode, Instr.port, decodeTracker, hop, Instr.opcode]
  | _ => simp [decode, Instr.port, decodeHost, hop, Instr.opcode]

/-- Why a port carries no operation of an opcode that is not its own (R65, R72). -/
def rejection (p : Port) (op : BitVec 4) : Reject :=
  match p with
  | .host => .trackerOnly op
  | .tracker => .notOnTracker op

/-- What R74 allows a port's decoder to answer: an operation of the port that the word carries, or the
port's rejection of its opcode. -/
def DecodeSpec (p : Port) (w : Word40) : Except Reject Instr → Prop
  | .ok i => i.port = p ∧ fieldOp w = i.opcode ∧ i.operandsIn w
  | .error r => r = rejection p (fieldOp w)

theorem decodeHost_spec (w : Word40) : DecodeSpec .host w (decodeHost w) := by
  rcases opcode_cases (fieldOp w) with hop | hop | hop | hop | hop | hop | hop | hop | hop | hop |
    hop | hop | hop | hop | hop | hop
  all_goals rw [decodeHost, hop]
  -- TOUCH and TRKRST, which only the tracker port carries
  on_goal 9 => exact congrArg Reject.trackerOnly hop.symm
  on_goal 9 => exact congrArg Reject.trackerOnly hop.symm
  all_goals exact ⟨rfl, hop, by simp [Instr.operandsIn]⟩

theorem decodeTracker_spec (w : Word40) : DecodeSpec .tracker w (decodeTracker w) := by
  unfold decodeTracker
  split_ifs with h8 h9
  · exact ⟨rfl, h8, rfl, rfl⟩
  · exact ⟨rfl, h9, trivial⟩
  · rfl

theorem decode_spec (p : Port) (w : Word40) : DecodeSpec p w (decode p w) := by
  cases p with
  | host => exact decodeHost_spec w
  | tracker => exact decodeTracker_spec w

/-- A rejection depends on the port and the opcode alone. -/
theorem rejection_of_decode {p : Port} {w : Word40} {r : Reject} (h : decode p w = .error r) :
    r = rejection p (fieldOp w) := by
  have hspec := decode_spec p w
  rw [h] at hspec
  exact hspec

/-- What a port decodes is the operation of that port whose opcode and operands stand in the word. -/
theorem decode_eq_ok_iff {p : Port} {w : Word40} {i : Instr} :
    decode p w = .ok i ↔ i.port = p ∧ fieldOp w = i.opcode ∧ i.operandsIn w := by
  constructor
  · intro h
    have hspec := decode_spec p w
    rw [h] at hspec
    exact hspec
  · rintro ⟨rfl, hop, hargs⟩
    exact decode_of_fields hop hargs

/-- The assembler's word carries the opcode of the operation's row (R63, R75). -/
theorem fieldOp_encode (i : Instr) : fieldOp (encode i) = i.opcode := by
  cases i <;> exact fieldOp_pack _ _ _ _

/-- Operands that fit stand in the assembler's word (R75). -/
theorem operandsIn_encode {i : Instr} (h : i.wf = true) : i.operandsIn (encode i) := by
  cases i with
  | setpx x y l =>
    obtain ⟨hx, hy⟩ := Bool.and_eq_true_iff.1 h
    exact ⟨fieldX_pack hx, fieldY_pack hy, fieldLuma_pack _ _ _ _⟩
  | clear l => exact fieldLuma_pack _ _ _ _
  | getpx x y =>
    obtain ⟨hx, hy⟩ := Bool.and_eq_true_iff.1 h
    exact ⟨fieldX_pack hx, fieldY_pack hy⟩
  | touch x y =>
    obtain ⟨hx, hy⟩ := Bool.and_eq_true_iff.1 h
    exact ⟨fieldX_pack hx, fieldY_pack hy⟩
  | _ => trivial

/-- Settles O2: the assembler's word has the opcode and the operands, so it decodes to the operation. -/
theorem decodeOfEncodeIsTheOperation : Obligations.DecodeOfEncodeIsTheOperation :=
  fun i hwf => decode_of_fields (fieldOp_encode i) (operandsIn_encode hwf)

/-- An operation whose operands are the fields of a word fits (R62). -/
theorem wf_of_operandsIn {i : Instr} {w : Word40} (h : i.operandsIn w) : i.wf = true := by
  cases i with
  | setpx x y l =>
    obtain ⟨rfl, rfl, -⟩ := h
    simp [Instr.wf, fieldX_fits, fieldY_fits]
  | getpx x y =>
    obtain ⟨rfl, rfl⟩ := h
    simp [Instr.wf, fieldX_fits, fieldY_fits]
  | touch x y =>
    obtain ⟨rfl, rfl⟩ := h
    simp [Instr.wf, fieldX_fits, fieldY_fits]
  | _ => rfl

/-- Settles O6: a decoded operation's operands are fields of the word. -/
theorem decodedOperationsFitAndBelongToTheirPort :
    Obligations.DecodedOperationsFitAndBelongToTheirPort := by
  intro p w i h
  obtain ⟨hport, -, hargs⟩ := decode_eq_ok_iff.1 h
  exact ⟨wf_of_operandsIn hargs, hport⟩

/-- Settles O1: the decoder run on each word. -/
theorem specWordsDecodeToTheirOperations : Obligations.SpecWordsDecodeToTheirOperations := by
  unfold Obligations.SpecWordsDecodeToTheirOperations
  decide

/-- Settles O5: the concatenation is the packed word of the fields' signed readings. -/
theorem operandFieldsAreSignExtended : Obligations.OperandFieldsAreSignExtended := by
  intro l y x
  have hpack (op : BitVec 4) : op ++ l ++ y ++ x = packCommand op l x.toInt y.toInt := by
    simp only [packCommand, BitVec.ofInt_toInt]
  have hx (op : BitVec 4) : fieldX (packCommand op l x.toInt y.toInt) = x.toInt :=
    fieldX_pack (coordFits_toInt x)
  have hy (op : BitVec 4) : fieldY (packCommand op l x.toInt y.toInt) = y.toInt :=
    fieldY_pack (coordFits_toInt y)
  have hl (op : BitVec 4) := fieldLuma_pack op l x.toInt y.toInt
  have hop (op : BitVec 4) := fieldOp_pack op l x.toInt y.toInt
  simp only [hpack]
  exact ⟨decode_of_fields (i := .setpx _ _ _) (hop _) ⟨hx _, hy _, hl _⟩,
    decode_of_fields (i := .clear _) (hop _) (hl _),
    decode_of_fields (i := .getpx _ _) (hop _) ⟨hx _, hy _⟩,
    decode_of_fields (i := .touch _ _) (hop _) ⟨hx _, hy _⟩⟩

end Sys2Proof
end

section
/-! The bits of a word an operation uses (30_encoding.md R64): O3 and O4. -/

namespace Sys2Proof

/-- The opcode field as the top four bits. -/
theorem shiftRight_36_eq (w : Word40) : w >>> 36 = (fieldOp w).setWidth 40 := by
  apply BitVec.eq_of_toNat_eq
  have := w.isLt
  simp only [fieldOp, BitVec.toNat_ushiftRight, BitVec.toNat_setWidth, BitVec.extractLsb'_toNat,
    Nat.shiftRight_eq_div_pow]
  omega

/-- A mask, given by its four fields, works field by field. -/
theorem and_mask {m : Word40} {op : BitVec 4} {l : Luma} {y x : BitVec 16}
    (hm : m = op ++ l ++ y ++ x) (w : Word40) :
    w &&& m = (fieldOp w &&& op) ++ (fieldLuma w &&& l) ++ (BitVec.ofInt 16 (fieldY w) &&& y) ++
      (BitVec.ofInt 16 (fieldX w) &&& x) := by
  subst hm
  conv_lhs => rw [← pack_fields w]
  exact BitVec.and_append.trans (congrArg (· ++ _) (BitVec.and_append.trans
    (congrArg (· ++ _) BitVec.and_append)))

theorem and_opBits (w : Word40) : w &&& 0xF000000000 = packCommand (fieldOp w) 0 0 0 := by
  rw [and_mask (op := .allOnes 4) (l := 0#4) (y := 0#16) (x := 0#16) (by decide)]
  simp [packCommand, -BitVec.reduceAllOnes]

theorem and_opLumaBits (w : Word40) :
    w &&& 0xFF00000000 = packCommand (fieldOp w) (fieldLuma w) 0 0 := by
  rw [and_mask (op := .allOnes 4) (l := .allOnes 4) (y := 0#16) (x := 0#16) (by decide)]
  simp [packCommand, -BitVec.reduceAllOnes]

theorem and_opCoordBits (w : Word40) :
    w &&& 0xF0FFFFFFFF = packCommand (fieldOp w) 0 (fieldX w) (fieldY w) := by
  rw [and_mask (op := .allOnes 4) (l := 0#4) (y := .allOnes 16) (x := .allOnes 16) (by decide)]
  simp [packCommand, -BitVec.reduceAllOnes]

theorem and_allBits (w : Word40) :
    w &&& 0xFFFFFFFFFF = packCommand (fieldOp w) (fieldLuma w) (fieldX w) (fieldY w) :=
  BitVec.and_allOnes.trans (pack_fields w).symm

/-- Settles O3: the masked word is the packed word of the fields the operation uses. -/
theorem encodeOfDecodeKeepsTheUsedBits : Obligations.EncodeOfDecodeKeepsTheUsedBits := by
  intro p w i h
  obtain ⟨-, hop, hargs⟩ := decode_eq_ok_iff.1 h
  cases i with
  | setpx x y l =>
    obtain ⟨rfl, rfl, rfl⟩ := hargs
    rw [Instr.usedBits, and_allBits, hop, encode]
  | clear l =>
    obtain rfl := hargs
    rw [Instr.usedBits, and_opLumaBits, hop, encode]
  | getpx x y =>
    obtain ⟨rfl, rfl⟩ := hargs
    rw [Instr.usedBits, and_opCoordBits, hop, encode]
  | touch x y =>
    obtain ⟨rfl, rfl⟩ := hargs
    rw [Instr.usedBits, and_opCoordBits, hop, encode]
  | _ => rw [Instr.usedBits, and_opBits, hop, encode]

/-- The mask of R64 for an opcode. -/
def usedMask (op : BitVec 4) : Word40 :=
  if op = 0x1 then 0xFFFFFFFFFF
  else if op = 0x2 then 0xFF00000000
  else if op = 0x5 ∨ op = 0x8 then 0xF0FFFFFFFF
  else 0xF000000000

theorem usedMask_opcode (i : Instr) : usedMask i.opcode = i.usedBits := by
  cases i <;> rfl

/-- Masking keeps the opcode. -/
theorem fieldOp_and_usedMask (w : Word40) (op : BitVec 4) : fieldOp (w &&& usedMask op) = fieldOp w := by
  unfold usedMask
  split_ifs
  · rw [and_allBits, fieldOp_pack]
  · rw [and_opLumaBits, fieldOp_pack]
  · rw [and_opCoordBits, fieldOp_pack]
  · rw [and_opBits, fieldOp_pack]

/-- Masking keeps the operands of the operation that uses those bits (R64). -/
theorem operandsIn_and_usedBits (i : Instr) (w : Word40) :
    i.operandsIn (w &&& i.usedBits) ↔ i.operandsIn w := by
  cases i with
  | setpx x y l => rw [Instr.usedBits, and_allBits, pack_fields]
  | clear l => simp only [Instr.operandsIn, Instr.usedBits, and_opLumaBits, fieldLuma_pack]
  | getpx x y =>
    simp only [Instr.operandsIn, Instr.usedBits, and_opCoordBits, fieldX_pack (fieldX_fits w),
      fieldY_pack (fieldY_fits w)]
  | touch x y =>
    simp only [Instr.operandsIn, Instr.usedBits, and_opCoordBits, fieldX_pack (fieldX_fits w),
      fieldY_pack (fieldY_fits w)]
  | _ => exact Iff.rfl

/-- The decoder looks at the opcode and at the operands of the opcode's operations only. -/
theorem decode_congr {w w' : Word40} (hop : fieldOp w = fieldOp w')
    (hargs : ∀ i : Instr, i.opcode = fieldOp w → (i.operandsIn w ↔ i.operandsIn w')) (p : Port) :
    decode p w = decode p w' := by
  have hok (i : Instr) : decode p w = .ok i ↔ decode p w' = .ok i := by
    rw [decode_eq_ok_iff, decode_eq_ok_iff, ← hop]
    exact and_congr_right fun _ => and_congr_right fun h => hargs i h.symm
  cases h : decode p w with
  | ok i => exact ((hok i).1 h).symm
  | error r =>
    cases h' : decode p w' with
    | ok i => exact absurd ((hok i).2 h') (by simp [h])
    | error r' => rw [rejection_of_decode h, rejection_of_decode h', hop]

theorem shiftRight_36_eq_iff (w : Word40) (op : BitVec 4) :
    w >>> 36 = op.setWidth 40 ↔ fieldOp w = op := by
  rw [shiftRight_36_eq]
  constructor
  · intro h
    simpa using congrArg (BitVec.setWidth 4) h
  · rintro rfl
    rfl

/-- Settles O4: words that agree under the mask agree on what `decode_congr` asks. -/
theorem unusedFieldsAreIgnored : Obligations.UnusedFieldsAreIgnored := by
  intro p w w' used h
  have hused : used = usedMask (fieldOp w) := by
    simp only [used, usedMask, ← shiftRight_36_eq_iff]
    rfl
  rw [hused] at h
  refine decode_congr ?_ (fun i hi => ?_) p
  · rw [← fieldOp_and_usedMask w, h, fieldOp_and_usedMask]
  · rw [← hi, usedMask_opcode] at h
    rw [← operandsIn_and_usedBits i w, h, operandsIn_and_usedBits]

end Sys2Proof
end

section
/-! The assembler (30_encoding.md R75; 70_reset_and_hazards.md R184), and O7. -/

namespace Sys2Proof

theorem assemble_of_wf {i : Instr} (h : i.wf = true) : assemble i = some (encode i) := if_pos h

theorem assemble_of_not_wf {i : Instr} (h : ¬ i.wf = true) : assemble i = none := if_neg h

/-- Two coordinates fit their fields (R62). -/
theorem coordsFit_iff {x y : Int} : (coordFits x && coordFits y) = true ↔
    -32768 ≤ x ∧ x ≤ 32767 ∧ -32768 ≤ y ∧ y ≤ 32767 := by
  rw [Bool.and_eq_true_iff, coordFits_iff, coordFits_iff, and_assoc]

/-- Settles O7: the assembler's guard is the range of the coordinates, its word `pack_word`'s formula. -/
theorem assemblerEmitsTheWordOrRefuses : Obligations.AssemblerEmitsTheWordOrRefuses := by
  intro x y l fits word
  refine ⟨fun h => ?_, fun h => ?_, ?_⟩
  · have hfit := coordsFit_iff.2 h
    exact ⟨(assemble_of_wf (i := .setpx x y l) hfit).trans (congrArg some (pack_word 0x1 l x y)),
      (assemble_of_wf (i := .getpx x y) hfit).trans (congrArg some (pack_word 0x5 0 x y)),
      (assemble_of_wf (i := .touch x y) hfit).trans (congrArg some (pack_word 0x8 0 x y))⟩
  · have hfit := mt coordsFit_iff.1 h
    exact ⟨assemble_of_not_wf (i := .setpx x y l) hfit, assemble_of_not_wf (i := .getpx x y) hfit,
      assemble_of_not_wf (i := .touch x y) hfit⟩
  · exact ⟨congrArg some (pack_word 0x2 l 0 0), congrArg some (pack_word 0x3 0 0 0),
      congrArg some (pack_word 0x4 0 0 0), congrArg some (pack_word 0x6 0 0 0),
      congrArg some (pack_word 0x7 0 0 0), congrArg some (pack_word 0x9 0 0 0)⟩

end Sys2Proof
end

section
/-! The status of a response word (30_encoding.md R66), and O14. -/

namespace Sys2Proof.Machine

/-- What R66 allows a response word to be: OK with any detail, or one of the two errors without. -/
def LegalResponse (r : Word40) : Prop :=
  r >>> 36 = 0x0 ∨ r = 0x1000000000 ∨ r = 0x2000000000

theorem legalResponse_ok (a : BitVec 4) (d : BitVec 32) : LegalResponse (responseWord .ok a d) := by
  have hstatus : fieldOp (responseWord .ok a d) = 0x0 := by
    rw [fieldOp, responseWord, BitVec.extractLsb'_append_eq_of_le (by decide)]
    exact BitVec.extractLsb'_append_eq_left
  exact .inl ((shiftRight_36_eq_iff _ _).2 hstatus)

theorem legalResponse_busError : LegalResponse (responseWord .busError 0 0) :=
  .inr (.inl responseWord_busError)

theorem legalResponse_illegal : LegalResponse (responseWord .illegal 0 0) :=
  .inr (.inr responseWord_illegal)

/-- A host operation that ends appends one legal response word (R66). -/
theorem exec_host_response {i : Instr} {s t : State} (hp : i.port = .host) (h : exec i s = .next t) :
    ∃ r, t.responses = s.responses ++ [r] ∧ LegalResponse r := by
  rcases exec_next_cases h with ⟨_, a, d, rfl, rfl | ⟨rfl, rfl, rfl⟩, -⟩ | ⟨_, _, _, -, rfl⟩ |
    ⟨_, -, rfl⟩ | ⟨_, _, rfl, -⟩ | ⟨rfl, -⟩ | ⟨-, _, ⟨rfl, -⟩ | ⟨_, rfl, -⟩⟩
  · exact ⟨_, rfl, legalResponse_ok a d⟩
  · exact ⟨_, rfl, legalResponse_illegal⟩
  · exact ⟨_, by rw [State.respond_responses, State.setPixel_responses], legalResponse_ok 0 0⟩
  · exact ⟨_, rfl, legalResponse_ok 0 0⟩
  · cases hp
  · cases hp
  · exact ⟨_, rfl, legalResponse_ok 0 0⟩
  · exact ⟨_, rfl, legalResponse_busError⟩

/-- A host word that is no host operation is taken off the port and answered ILLEGAL (R142). -/
theorem step_of_rejected_command {s : State} {w : Word40} {rest : List HostInput} {r : Reject}
    (ht : s.trackerIn = none) (hi : s.inputs = .command w :: rest) (hd : decode .host w = .error r) :
    step s = .next (s.takeInput rest).raiseIllegal := by
  rw [decode] at hd
  simp only [step, fetch_of_command ht hi, fetchHost, hd]

/-- Settles O14: a host word is decoded to an operation of the host port or answered ILLEGAL. -/
theorem oneResponsePerHostCommand : Obligations.OneResponsePerHostCommand := by
  intro s t w rest htracker hinputs hstep
  cases hd : decode .host w with
  | ok i =>
    rw [step_of_command htracker hinputs hd] at hstep
    exact exec_host_response (s := s.takeInput rest) (decode_eq_ok_iff.1 hd).1 hstep
  | error r =>
    cases (step_of_rejected_command htracker hinputs hd).symm.trans hstep
    exact ⟨_, rfl, legalResponse_illegal⟩

end Sys2Proof.Machine
end

section
/-! A drawing as one change of the state (30_encoding.md R76), and O28. -/

namespace Sys2Proof.Machine

/-- The pixel writes of a drawing, without their responses. -/
def State.paint (s : State) (pixels : List Pixel) : State :=
  pixels.foldl (fun t p => t.setPixel p.x p.y p.luma) s

/-- Replace the history of responses. -/
def State.withResponses (s : State) (r : List Word40) : State := { s with responses := r }

/-- An out-of-bounds pixel write does nothing (R81, R85). -/
theorem State.setPixel_of_outOfBounds {x y : Int} (h : ¬ inBounds x y = true) (s : State) (l : Luma) :
    s.setPixel x y l = s := if_neg h

theorem State.setPixel_withResponses (s : State) (r : List Word40) (x y : Int) (l : Luma) :
    (s.withResponses r).setPixel x y l = (s.setPixel x y l).withResponses r := by
  simp only [State.setPixel, apply_ite (State.withResponses · r)]
  rfl

theorem State.paint_withResponses (s : State) (r : List Word40) (pixels : List Pixel) :
    (s.withResponses r).paint pixels = (s.paint pixels).withResponses r := by
  induction pixels generalizing s with
  | nil => rfl
  | cons p ps ih =>
    rw [State.paint, List.foldl_cons, State.setPixel_withResponses]
    exact ih _

theorem State.paint_trace (s : State) (pixels : List Pixel) : (s.paint pixels).trace = s.trace := by
  induction pixels generalizing s with
  | nil => rfl
  | cons p ps ih => exact (ih _).trans (s.setPixel_trace p.x p.y p.luma)

/-- The out-of-bounds elements of a drawing paint nothing (R76). -/
theorem State.paint_filter_inBounds (s : State) (pixels : List Pixel) :
    s.paint (pixels.filter fun p => inBounds p.x p.y) = s.paint pixels := by
  rw [State.paint, List.foldl_filter]
  congr 1
  funext t p
  split_ifs with h
  · rfl
  · exact (State.setPixel_of_outOfBounds h t p.luma).symm

/-- DRAW paints its pixels and answers OK once per element (R76). -/
theorem execAll_draw (pixels : List Pixel) (s : State) :
    execAll (draw pixels) s = .next ((s.paint pixels).withResponses
      (s.responses ++ List.replicate pixels.length (responseWord .ok 0 0))) := by
  induction pixels generalizing s with
  | nil => simp [draw, execAll, State.paint, State.withResponses]
  | cons p ps ih =>
    have hp : exec (.setpx p.x p.y p.luma) s = .next ((s.setPixel p.x p.y p.luma).withResponses
        (s.responses ++ [responseWord .ok 0 0])) := by
      rw [← s.setPixel_responses p.x p.y p.luma]
      rfl
    refine (execAll_cons_next hp).trans ((ih _).trans ?_)
    rw [State.paint_withResponses]
    simp [State.withResponses, State.paint, List.replicate_succ]

/-- Settles O28: `execAll_draw` of both drawings, which paint the same. -/
theorem drawDiscardsOutOfRangePixels : Obligations.DrawDiscardsOutOfRangePixels := by
  intro s pixels
  refine ⟨_, _, execAll_draw pixels s, execAll_draw _ s, ?_⟩
  rw [State.paint_filter_inBounds]
  exact ⟨rfl, rfl, s.paint_trace pixels,
    congrArg (s.responses ++ List.replicate pixels.length ·) responseWord_ok⟩

end Sys2Proof.Machine
end

section
/-! The operations of the Framebuffer Store as next states (40_store.md R81 to R92): O20 to O26. -/

namespace Sys2Proof.Machine

/-! ### Nibbles and words in the spec's spelling -/

/-- The candidate byte with the parity tested on the integer (R81, R90). -/
theorem packNibble_of_nonneg {x : Int} (hx : 0 ≤ x) (b : Byte) (l : Luma) :
    packNibble b x l = if x % 2 = 0 then (b &&& 0x0F) ||| (l.setWidth 8 <<< 4)
      else (b &&& 0xF0) ||| l.setWidth 8 := by
  simp only [packNibble, parity_iff hx]

/-- The nibble of a pixel with the parity tested on the integer (R87, R90). -/
theorem unpackNibble_of_nonneg {x : Int} (hx : 0 ≤ x) (b : Byte) :
    unpackNibble b x = if x % 2 = 0 then b.extractLsb' 4 4 else b.extractLsb' 0 4 := by
  simp only [unpackNibble, parity_iff hx]

/-- A response OK without detail appends the zero word and changes nothing else (R66). -/
theorem State.respond_ok (s : State) :
    s.respond .ok 0 0 = { s with responses := s.responses ++ [0x0000000000] } :=
  congrArg (fun w => ({ s with responses := s.responses ++ [w] } : State)) responseWord_ok

/-! ### SETPX -/

theorem exec_setpx (x y : Int) (l : Luma) (s : State) :
    exec (.setpx x y l) s = .next ((s.setPixel x y l).respond .ok 0 0) := rfl

/-- After an in-bounds pixel write its byte is the candidate, also where nothing was written (R81). -/
theorem State.setPixel_read_pixelIndex {s : State} {x y : Int} (h : s.fb.wf = true)
    (hb : inBounds x y = true) (l : Luma) :
    (s.setPixel x y l).fb.read (pixelIndex x y) =
      packNibble (s.fb.read (pixelIndex x y)) x l := by
  rw [State.setPixel_read h, if_pos ⟨hb, rfl⟩]

/-- A pixel write leaves every other byte alone (R88). -/
theorem State.setPixel_read_of_ne {s : State} {x y : Int} (h : s.fb.wf = true) (l : Luma) {i : Nat}
    (hi : i ≠ pixelIndex x y) : (s.setPixel x y l).fb.read i = s.fb.read i := by
  rw [State.setPixel_read h, if_neg fun hbi => hi hbi.2]

/-- After a pixel write FB shows the pixel (R88). -/
theorem State.setPixel_shows {s : State} (h : s.fb.wf = true) (x y : Int) (l : Luma) :
    (s.setPixel x y l).fb.shows ⟨x, y, l⟩ := by
  intro hb
  rw [State.setPixel_read_pixelIndex h hb, unpack_pack]

/-- A pixel write that changes its byte touches the pixel (R81). -/
theorem State.setPixel_dr_of_changed {s : State} {x y : Int} {l : Luma} (hb : inBounds x y = true)
    (hne : packNibble (s.fb.read (pixelIndex x y)) x l ≠ s.fb.read (pixelIndex x y)) :
    (s.setPixel x y l).dr = touchRect s.dr x y := by
  rcases s.setPixel_cases x y l with ⟨-, hl⟩ | ⟨-, -, he⟩
  · exact absurd ((pack_eq_iff _ _ _).2 (hl hb)) hne
  · rw [he, State.touch_dr, State.withFb_dr]

/-- SETPX writes FB, DR and the response, and nothing else (R30). -/
theorem State.setPixel_respond_frame (s : State) (x y : Int) (l : Luma) :
    (s.setPixel x y l).respond .ok 0 0 = { s with
      fb := (s.setPixel x y l).fb
      dr := (s.setPixel x y l).dr
      responses := s.responses ++ [0x0000000000] } := by
  rw [State.respond_ok]
  apply State.ext_fields <;> simp

/-- Settles O20: `setPixel_read` gives the byte, and the byte's comparison decides the touch. -/
theorem setpxWritesOneNibble : Obligations.SetpxWritesOneNibble := by
  intro s x y l hwf idx old cand
  refine ⟨pack_word 0x1 l x y, ?_⟩
  split_ifs with hb
  · have hcand : cand = packNibble old x l := (packNibble_of_nonneg hb.1 old l).symm
    have hin := inBounds_iff.2 hb
    refine ⟨_, rfl, fun i => ?_, fun heq => ?_, fun hne => ?_, s.setPixel_respond_frame x y l⟩
    · rw [hcand, State.respond_fb]
      split_ifs with hi
      · rw [hi]
        exact State.setPixel_read_pixelIndex hwf hin l
      · exact State.setPixel_read_of_ne hwf l hi
    · have hshown : s.fb.shows ⟨x, y, l⟩ := fun _ => (pack_eq_iff old x l).1 (hcand ▸ heq)
      rw [State.setPixel_of_shown hshown]
      exact ⟨rfl, rfl⟩
    · exact State.setPixel_dr_of_changed hin (hcand ▸ hne)
  · rw [exec_setpx, State.setPixel_of_outOfBounds (mt inBounds_iff.1 hb), State.respond_ok]

/-! ### CLEAR -/

theorem exec_clear (l : Luma) (s : State) :
    exec (.clear l) s = .next ((s.withFb (Memory.fill (bothNibbles l))).respond .ok 0 0) := rfl

/-- Settles O21: `read_fill` for the byte with both nibbles set. -/
theorem clearFillsEveryByte : Obligations.ClearFillsEveryByte := by
  intro s l
  refine ⟨?_, _, exec_clear l s, fun i hi => Memory.read_fill (bothNibbles l) hi, ?_⟩
  · refine (pack_word 0x2 l 0 0).trans ?_
    simp
  · exact State.respond_ok _

/-! ### GETPX -/

theorem exec_getpx_of_inBounds {x y : Int} (hb : inBounds x y = true) (s : State) :
    exec (.getpx x y) s =
      .next (s.respond .ok (unpackNibble (s.fb.read (pixelIndex x y)) x) 1) := by
  rw [exec, execGetpx, if_pos hb]

theorem exec_getpx_of_outOfBounds {x y : Int} (hb : ¬ inBounds x y = true) (s : State) :
    exec (.getpx x y) s = .next (s.respond .ok 0 0) := by
  rw [exec, execGetpx, if_neg hb]

/-- GETPX answers the luma of a pixel that FB shows (R83). -/
theorem exec_getpx_of_shown {s : State} {x y : Int} {l : Luma} (hb : inBounds x y = true)
    (h : s.fb.shows ⟨x, y, l⟩) : exec (.getpx x y) s = .next (s.respond .ok l 1) := by
  rw [exec_getpx_of_inBounds hb, h hb]

/-- Settles O22: one equation of GETPX per side of the bounds check. -/
theorem getpxReadsOneNibble : Obligations.GetpxReadsOneNibble := by
  intro s x y b luma
  refine ⟨pack_word 0x5 0 x y, ?_⟩
  split_ifs with hb
  · have hluma : luma = unpackNibble b x := (unpackNibble_of_nonneg hb.1 b).symm
    rw [hluma]
    exact exec_getpx_of_inBounds (inBounds_iff.2 hb) s
  · rw [exec_getpx_of_outOfBounds (mt inBounds_iff.1 hb), State.respond_ok]

/-! ### What GETPX reads after SETPX and after CLEAR -/

/-- The other pixel of a pixel's byte (R45, R88). -/
def neighbour (x : Int) : Int := if x % 2 = 0 then x + 1 else x - 1

theorem inBounds_neighbour {x y : Int} (h : inBounds x y = true) :
    inBounds (neighbour x) y = true := by
  rw [inBounds_iff] at h ⊢
  unfold neighbour
  split <;> omega

theorem neighbour_parity {x : Int} (hx : 0 ≤ x) : x.toNat % 2 ≠ (neighbour x).toNat % 2 := by
  unfold neighbour
  split <;> omega

theorem pixelIndex_neighbour {x : Int} (hx : 0 ≤ x) (y : Int) :
    pixelIndex (neighbour x) y = pixelIndex x y := by
  unfold pixelIndex neighbour
  split <;> omega

/-- A pixel write keeps the nibble of the other pixel of its byte (R88). -/
theorem State.setPixel_unpack_neighbour {s : State} {x y : Int} (h : s.fb.wf = true)
    (hb : inBounds x y = true) (l : Luma) :
    unpackNibble ((s.setPixel x y l).fb.read (pixelIndex (neighbour x) y)) (neighbour x) =
      unpackNibble (s.fb.read (pixelIndex (neighbour x) y)) (neighbour x) := by
  have hx : 0 ≤ x := (inBounds_iff.1 hb).1
  rw [pixelIndex_neighbour hx, State.setPixel_read_pixelIndex h hb,
    unpack_pack_other _ _ _ _ (neighbour_parity hx)]

/-- Settles O24: FB shows the pixel after the SETPX, and the neighbour's nibble is kept. -/
theorem setpxGetpxRoundTrip : Obligations.SetpxGetpxRoundTrip := by
  intro s x y l hwf hb
  have hshows : ((s.setPixel x y l).respond .ok 0 0).fb.shows ⟨x, y, l⟩ :=
    State.setPixel_shows hwf x y l
  have hnb := inBounds_neighbour hb
  refine ⟨_, _, _, _, rfl, exec_getpx_of_shown hb hshows, rfl, exec_getpx_of_inBounds hnb _,
    exec_getpx_of_inBounds hnb _, ?_, fun i hi => State.setPixel_read_of_ne hwf l hi⟩
  rw [State.respond_fb, State.setPixel_unpack_neighbour hwf hb]
  simp

/-- Settles O25: the candidate is the old byte exactly when the nibble holds the luma, and after the
SETPX the pixel is shown. -/
theorem noChangeNoDirt : Obligations.NoChangeNoDirt := by
  intro s x y l hwf hb idx nibble
  have hnibble : nibble = unpackNibble (s.fb.read idx) x :=
    (unpackNibble_of_nonneg (inBounds_iff.1 hb).1 _).symm
  have hshows : ((s.setPixel x y l).respond .ok 0 0).fb.shows ⟨x, y, l⟩ :=
    State.setPixel_shows hwf x y l
  refine ⟨_, rfl, ?_, fun heq => ?_, ?_⟩
  · rw [hnibble, ← pack_eq_iff]
    exact Eq.congr_left (State.setPixel_read_pixelIndex hwf hb l)
  · have hshown : s.fb.shows ⟨x, y, l⟩ := fun _ => hnibble.symm.trans heq
    rw [State.setPixel_of_shown hshown]
    exact ⟨rfl, rfl⟩
  · rw [exec_setpx, State.setPixel_of_shown hshows, State.respond_ok]

/-- Settles O26: CLEAR leaves every pixel showing its luma, and GETPX reads what is shown. -/
theorem clearedPixelsReadTheLuma : Obligations.ClearedPixelsReadTheLuma := by
  intro s l x y hb
  exact ⟨_, _, exec_clear l s, exec_getpx_of_shown hb (Memory.fill_shows x y l),
    List.append_assoc s.responses [_] [_]⟩

/-! ### GETDIMS -/

/-- Settles O23: the constants of the geometry, packed into one response word. -/
theorem getdimsReportsTheGeometry : Obligations.GetdimsReportsTheGeometry :=
  ⟨by decide, fun _ => rfl⟩

end Sys2Proof.Machine
end

section
/-! Every operation and every step keep the invariant (10_state.md R22; 41_tracker.md R105): O16, O17. -/

namespace Sys2Proof.Machine

/-- The invariant speaks of FB and DR only. -/
theorem State.Inv.of_eq {s t : State} (h : s.Inv) (hfb : t.fb = s.fb) (hdr : t.dr = s.dr) : t.Inv := by
  rwa [State.Inv, hfb, hdr]

/-- With FB canonical, the invariant asks nothing of an absent rectangle. -/
theorem State.inv_of_absent {s : State} (hfb : s.fb.wf = true) (hdr : s.dr = none) : s.Inv :=
  ⟨hfb, fun q hq => by simp [hdr] at hq⟩

theorem exec_inv {i : Instr} {s t : State} (hs : s.Inv) (h : exec i s = .next t) : t.Inv := by
  rcases exec_next_cases h with ⟨_, _, _, rfl, -⟩ | ⟨x, y, l, -, rfl⟩ | ⟨l, -, rfl⟩ |
    ⟨x, y, -, hb, rfl⟩ | ⟨-, rfl⟩ | ⟨-, _, ⟨rfl, -⟩ | ⟨_, rfl, -⟩⟩
  · exact hs.of_eq rfl rfl
  · exact (State.setPixel_inv hs x y l).of_eq rfl rfl
  · exact ⟨Memory.wf_fill _, hs.2⟩
  · exact ⟨hs.1, touchRect_legal hs.2 hb⟩
  · exact State.inv_of_absent hs.1 rfl
  · exact State.inv_of_absent hs.1 rfl
  · exact hs.of_eq rfl rfl

/-- Settles O16: idling, an illegal word and taking a word off its port leave FB and DR alone, the reset
input empties both, and an operation keeps the invariant by `exec_inv`. -/
theorem stepKeepsTheInvariant : Obligations.StepKeepsTheInvariant := by
  intro s t hs h
  rcases step_next_cases h with ⟨-, -, rfl⟩ | ⟨rest, -, -, rfl⟩ | ⟨_, rest, _, -, -, -, hexec⟩ |
    ⟨_, rest, _, -, -, -, rfl⟩ | ⟨_, _, -, -, hexec⟩
  · exact hs
  · exact State.inv_of_absent rfl rfl
  · exact exec_inv (s := s.takeInput rest) (hs.of_eq rfl rfl) hexec
  · exact hs.of_eq rfl rfl
  · exact exec_inv (s := s.takeTracker) (hs.of_eq rfl rfl) hexec

/-- Settles O17: no cell is listed and nothing is dirty. -/
theorem resetMeetsTheInvariant : Obligations.ResetMeetsTheInvariant :=
  State.inv_of_absent rfl rfl

end Sys2Proof.Machine
end

section
/-! The operations of the Change Tracker as next states (41_tracker.md R101 to R104, R108, R110): O29
to O33 and O36. -/

namespace Sys2Proof.Machine

/-! ### TOUCH -/

/-- The rectangle of one point (R101). -/
def Rect.point (x y : Int) : Rect := ⟨pixelColumn x, pixelColumn x, pixelRow y, pixelRow y⟩

/-- A present rectangle widened to a point, axis by axis (R101). -/
def Rect.widened (q : Rect) (x y : Int) : Rect :=
  ⟨(widen q.cmin q.cmax (pixelColumn x)).1, (widen q.cmin q.cmax (pixelColumn x)).2,
    (widen q.rmin q.rmax (pixelRow y)).1, (widen q.rmin q.rmax (pixelRow y)).2⟩

theorem touchRect_none (x y : Int) : touchRect none x y = some (Rect.point x y) := rfl

theorem touchRect_some (q : Rect) (x y : Int) : touchRect (some q) x y = some (q.widened x y) := rfl

/-- A touch always leaves a rectangle present (R101). -/
theorem touchRect_ne_none (d : Option Rect) (x y : Int) : touchRect d x y ≠ none := by
  cases d with
  | none => simp [touchRect_none]
  | some q => simp [touchRect_some]

theorem exec_touch_of_inBounds {x y : Int} (hb : inBounds x y = true) (s : State) :
    exec (.touch x y) s = .next (s.touch x y) := if_pos hb

theorem exec_touch_of_outOfBounds {x y : Int} (hb : ¬ inBounds x y = true) (s : State) :
    exec (.touch x y) s = .refused .touchOutOfBounds := if_neg hb

theorem exec_touch_of_absent {s : State} {x y : Int} (hdr : s.dr = none) (hb : inBounds x y = true) :
    exec (.touch x y) s = .next { s with dr := some (Rect.point x y) } := by
  rw [exec_touch_of_inBounds hb, State.touch, hdr, touchRect_none, State.withDr]

theorem exec_touch_of_present {s : State} {q : Rect} {x y : Int} (hdr : s.dr = some q)
    (hb : inBounds x y = true) :
    exec (.touch x y) s = .next { s with dr := some (q.widened x y) } := by
  rw [exec_touch_of_inBounds hb, State.touch, hdr, touchRect_some, State.withDr]

/-- One axis of the merge moves at most one bound, and to the touched value (R101). -/
theorem widen_one_sided (lo hi v : Byte) :
    if v < lo then (widen lo hi v).1 = v ∧ (widen lo hi v).2 = hi
    else if hi < v then (widen lo hi v).1 = lo ∧ (widen lo hi v).2 = v
    else (widen lo hi v).1 = lo ∧ (widen lo hi v).2 = hi := by
  unfold widen
  split_ifs
  · exact ⟨rfl, rfl⟩
  · exact ⟨rfl, rfl⟩
  · exact ⟨rfl, rfl⟩

/-- Settles O29: the point where nothing was dirty, else `widen_one_sided` on each axis. -/
theorem touchMergesOnePoint : Obligations.TouchMergesOnePoint := by
  intro s x y h c r
  have hb := inBounds_iff.2 h
  refine ⟨(pack_word 0x8 0 x y).trans (by simp), ?_⟩
  cases hdr : s.dr with
  | none => exact ⟨_, exec_touch_of_absent hdr hb, rfl⟩
  | some q => exact ⟨_, exec_touch_of_present hdr hb, widen_one_sided _ _ _, widen_one_sided _ _ _⟩

/-- Settles O30: the bounds check decides. -/
theorem touchOutOfBoundsIsRefused : Obligations.TouchOutOfBoundsIsRefused :=
  fun s _ _ h => exec_touch_of_outOfBounds (mt inBounds_iff.1 h) s

/-- Settles O33: `touchRect_spec` for a present rectangle. -/
theorem touchIsMinAndMax : Obligations.TouchIsMinAndMax := by
  intro s q x y hdr hq hb
  obtain ⟨q', hq', -, -, -, -, hminmax⟩ := touchRect_spec (d := some q) (by simpa using hq) hb
  cases hq'
  exact ⟨q.widened x y, exec_touch_of_present hdr hb, hminmax q rfl⟩

/-- Settles O36: `widen_le` on each axis. -/
theorem touchOnlyWidens : Obligations.TouchOnlyWidens := by
  intro s q x y hdr hb
  obtain ⟨hcmin, hcmax⟩ := widen_le q.cmin q.cmax (pixelColumn x)
  obtain ⟨hrmin, hrmax⟩ := widen_le q.rmin q.rmax (pixelRow y)
  exact ⟨q.widened x y, exec_touch_of_present hdr hb, hcmin, hcmax, hrmin, hrmax⟩

/-! ### TRKRST -/

/-- A pixel write never makes a present rectangle absent (R125). -/
theorem State.setPixel_dr_ne_none {s : State} (h : s.dr ≠ none) (x y : Int) (l : Luma) :
    (s.setPixel x y l).dr ≠ none := by
  rcases s.setPixel_cases x y l with ⟨he, -⟩ | ⟨-, -, he⟩
  · rwa [he]
  · rw [he]
    exact touchRect_ne_none _ _ _

/-- Only TRKRST and a flush answered OK make a present rectangle absent (R125). -/
theorem exec_makes_absent {i : Instr} {s t : State} (h : exec i s = .next t) (hs : s.dr ≠ none)
    (ht : t.dr = none) :
    i = .trkrst ∨ ((i = .flushf ∨ i = .flushc) ∧ t.responses = s.responses ++ [0x0000000000]) := by
  rcases exec_next_cases h with ⟨_, _, _, rfl, -⟩ | ⟨x, y, l, -, rfl⟩ | ⟨_, -, rfl⟩ |
    ⟨x, y, -, -, rfl⟩ | ⟨hi, -⟩ | ⟨hi, _, ⟨rfl, -⟩ | ⟨_, rfl, -⟩⟩
  · exact absurd ht hs
  · exact absurd ht (State.setPixel_dr_ne_none hs x y l)
  · exact absurd ht hs
  · exact absurd ht (touchRect_ne_none _ x y)
  · exact .inl hi
  · exact .inr ⟨hi, congrArg (s.responses ++ [·]) responseWord_ok⟩
  · exact absurd ht hs

/-- Settles O31: TRKRST by its definition, every other operation by `exec_makes_absent`. -/
theorem trkrstForgetsTheRectangle : Obligations.TrkrstForgetsTheRectangle :=
  ⟨by decide, fun _ => rfl, fun _ _ _ => exec_makes_absent⟩

/-! ### GETDIRTY -/

theorem exec_getdirty_of_absent {s : State} (hdr : s.dr = none) :
    exec .getdirty s = .next (s.respond .ok 0 0) := by
  rw [exec, execGetdirty, State.dv, hdr]
  rfl

theorem exec_getdirty_of_present {s : State} {q : Rect} (hdr : s.dr = some q) :
    exec .getdirty s = .next (s.respond .ok 1 (q.cmin ++ q.cmax ++ q.rmin ++ q.rmax)) := by
  rw [exec, execGetdirty, State.dv, hdr]
  rfl

/-- A response OK whose detail is DV = 1 and the four bounds, field by field (R66, R103). -/
theorem responseWord_bounds (q : Rect) :
    responseWord .ok 1 (q.cmin ++ q.cmax ++ q.rmin ++ q.rmax) =
      0x0#4 ++ 0x1#4 ++ q.cmin ++ q.cmax ++ q.rmin ++ q.rmax := by
  simp only [responseWord, statusCode, BitVec.append_assoc, BitVec.cast_eq]
  rfl

/-- Settles O32: GETDIRTY while the rectangle is absent, and while it is present. -/
theorem getdirtyReportsTheRectangle : Obligations.GetdirtyReportsTheRectangle := by
  refine ⟨by decide, fun s => ?_⟩
  cases hdr : s.dr with
  | none =>
    rw [exec_getdirty_of_absent hdr, State.respond_ok, hdr]
  | some q =>
    rw [exec_getdirty_of_present hdr, State.respond, responseWord_bounds, hdr]

end Sys2Proof.Machine
end

section
/-! Sequences of touches and the minimal bounding rectangle (41_tracker.md R106), and O34. -/

namespace Sys2Proof.Machine

/-- DR after a sequence of touches (R101). -/
def touchAll (d : Option Rect) (points : List (Int × Int)) : Option Rect :=
  points.foldl (fun d p => touchRect d p.1 p.2) d

/-- `q` covers every point, and each of its bounds is met by one: the exact minimal bounding
rectangle, in byte columns and rows (R106). -/
structure Rect.IsBoxOf (q : Rect) (points : List (Int × Int)) : Prop where
  covers : ∀ p ∈ points, q.covers (p.1.toNat / 2) p.2.toNat = true
  cmin_met : ∃ p ∈ points, q.cmin.toNat = p.1.toNat / 2
  cmax_met : ∃ p ∈ points, q.cmax.toNat = p.1.toNat / 2
  rmin_met : ∃ p ∈ points, q.rmin.toNat = p.2.toNat
  rmax_met : ∃ p ∈ points, q.rmax.toNat = p.2.toNat

/-- The dirty rectangle is the bounding rectangle of the points, absent if there are none. -/
def IsBox : Option Rect → List (Int × Int) → Prop
  | none, points => points = []
  | some q, points => q.IsBoxOf points

/-- The bounding rectangle of in-bounds points is legal (R105). -/
theorem Rect.IsBoxOf.legal {q : Rect} {points : List (Int × Int)} (h : q.IsBoxOf points)
    (hb : ∀ p ∈ points, inBounds p.1 p.2 = true) : q.legal = true := by
  obtain ⟨a, ha, hcmin⟩ := h.cmin_met
  obtain ⟨b, hbm, hcmax⟩ := h.cmax_met
  obtain ⟨c, hc, hrmin⟩ := h.rmin_met
  obtain ⟨d, hd, hrmax⟩ := h.rmax_met
  have hacov := Rect.covers_iff.1 (h.covers a ha)
  have hccov := Rect.covers_iff.1 (h.covers c hc)
  have hbb := inBounds_iff.1 (hb b hbm)
  have hdb := inBounds_iff.1 (hb d hd)
  rw [Rect.legal_iff]
  omega

/-- A bound kept from the old points, where one met it, or moved to the new point, is met. -/
theorem met_append {points : List (Int × Int)} {new : Int × Int} (f : Int × Int → Nat) {a b c : Nat}
    (hmet : ∃ p ∈ points, a = f p) (hbc : b = c) (hc : c = a ∨ c = f new) :
    ∃ p ∈ points ++ [new], b = f p := by
  subst hbc
  rcases hc with rfl | rfl
  · obtain ⟨p, hp, he⟩ := hmet
    exact ⟨p, List.mem_append_left _ hp, he⟩
  · exact ⟨new, by simp, rfl⟩

/-- One more touch keeps the dirty rectangle the bounding one (R106). -/
theorem IsBox.touch {d : Option Rect} {points : List (Int × Int)} {p : Int × Int} (h : IsBox d points)
    (hb : ∀ p ∈ points, inBounds p.1 p.2 = true) (hp : inBounds p.1 p.2 = true) :
    IsBox (touchRect d p.1 p.2) (points ++ [p]) := by
  have hlegal : ∀ q, d = some q → q.legal = true := by
    rintro q rfl
    exact Rect.IsBoxOf.legal h hb
  obtain ⟨q', hq', -, hcov, hkeep, hnone, hsome⟩ := touchRect_spec hlegal hp
  rw [hq']
  cases d with
  | none =>
    obtain rfl : points = [] := h
    obtain ⟨h1, h2, h3, h4⟩ := hnone rfl
    exact ⟨by simpa using hcov, ⟨p, by simp, h1⟩, ⟨p, by simp, h2⟩, ⟨p, by simp, h3⟩,
      ⟨p, by simp, h4⟩⟩
  | some q =>
    have hbox : q.IsBoxOf points := h
    obtain ⟨h1, h2, h3, h4⟩ := hsome q rfl
    refine ⟨fun p' hp' => ?_,
      met_append (fun p => p.1.toNat / 2) hbox.cmin_met h1 (min_choice _ _),
      met_append (fun p => p.1.toNat / 2) hbox.cmax_met h2 (max_choice _ _),
      met_append (fun p => p.2.toNat) hbox.rmin_met h3 (min_choice _ _),
      met_append (fun p => p.2.toNat) hbox.rmax_met h4 (max_choice _ _)⟩
    rcases List.mem_append.1 hp' with hold | hnew
    · exact hkeep q _ _ rfl (hbox.covers p' hold)
    · rw [List.mem_singleton.1 hnew]
      exact hcov

/-- From an absent rectangle, touches give the bounding rectangle of their points (R106). -/
theorem touchAll_isBox {points : List (Int × Int)} (hb : ∀ p ∈ points, inBounds p.1 p.2 = true) :
    IsBox (touchAll none points) points := by
  induction points using List.reverseRecOn with
  | nil => rfl
  | append_singleton ps p ih =>
    have hps : ∀ p ∈ ps, inBounds p.1 p.2 = true := fun p' hp' => hb p' (List.mem_append_left _ hp')
    rw [touchAll, List.foldl_append]
    exact (ih hps).touch hps (hb p (by simp))

/-- The bounding rectangle of some of the points lies inside that of all of them. -/
theorem Rect.IsBoxOf.inside {q q' : Rect} {points points' : List (Int × Int)}
    (h : q.IsBoxOf points) (h' : q'.IsBoxOf points') (hmem : ∀ p, p ∈ points → p ∈ points') :
    q'.cmin ≤ q.cmin ∧ q.cmax ≤ q'.cmax ∧ q'.rmin ≤ q.rmin ∧ q.rmax ≤ q'.rmax := by
  have hcov p (hp : p ∈ points) := Rect.covers_iff.1 (h'.covers p (hmem p hp))
  obtain ⟨a, ha, hcmin⟩ := h.cmin_met
  obtain ⟨b, hb, hcmax⟩ := h.cmax_met
  obtain ⟨c, hc, hrmin⟩ := h.rmin_met
  obtain ⟨d, hd, hrmax⟩ := h.rmax_met
  simp only [BitVec.le_def, hcmin, hcmax, hrmin, hrmax]
  exact ⟨(hcov a ha).1, (hcov b hb).2.1, (hcov c hc).2.2.1, (hcov d hd).2.2.2⟩

/-- The bounding rectangle depends on which points there are, not on their order (R106). -/
theorem Rect.IsBoxOf.unique {q q' : Rect} {points points' : List (Int × Int)} (h : q.IsBoxOf points)
    (h' : q'.IsBoxOf points') (hperm : points'.Perm points) : q' = q := by
  obtain ⟨h1, h2, h3, h4⟩ := h.inside h' fun _ => hperm.mem_iff.2
  obtain ⟨h1', h2', h3', h4'⟩ := h'.inside h fun _ => hperm.mem_iff.1
  cases q
  cases q'
  rw [Rect.mk.injEq]
  exact ⟨BitVec.le_antisymm h1 h1', BitVec.le_antisymm h2' h2, BitVec.le_antisymm h3 h3',
    BitVec.le_antisymm h4' h4⟩

/-- A present bounding rectangle has a point. -/
theorem Rect.IsBoxOf.ne_nil {q : Rect} {points : List (Int × Int)} (h : q.IsBoxOf points) :
    points ≠ [] := by
  obtain ⟨p, hp, -⟩ := h.cmin_met
  exact List.ne_nil_of_mem hp

theorem IsBox.unique {d d' : Option Rect} {points points' : List (Int × Int)} (h : IsBox d points)
    (h' : IsBox d' points') (hperm : points'.Perm points) : d' = d := by
  cases d with
  | none =>
    obtain rfl : points = [] := h
    cases d' with
    | none => rfl
    | some q' => exact absurd hperm.eq_nil (Rect.IsBoxOf.ne_nil h')
  | some q =>
    cases d' with
    | none =>
      obtain rfl : points' = [] := h'
      exact absurd hperm.symm.eq_nil (Rect.IsBoxOf.ne_nil h)
    | some q' => exact congrArg some (Rect.IsBoxOf.unique h h' hperm)

/-- Touches of in-bounds points change DR and nothing else (R101). -/
theorem execAll_touches {points : List (Int × Int)} (hb : ∀ p ∈ points, inBounds p.1 p.2 = true)
    (s : State) :
    execAll (points.map fun p => .touch p.1 p.2) s = .next (s.withDr (touchAll s.dr points)) := by
  induction points generalizing s with
  | nil => rfl
  | cons p ps ih =>
    rw [List.map_cons, execAll_cons_next (exec_touch_of_inBounds (hb p List.mem_cons_self) s)]
    exact ih (fun p' hp' => hb p' (List.mem_cons_of_mem p hp')) _

/-- Settles O34: both orders give a bounding rectangle of the same points, and there is only one. -/
theorem touchesGiveTheMinimalBoundingRectangle :
    Obligations.TouchesGiveTheMinimalBoundingRectangle := by
  intro s points points' hdr hb hperm
  have hb' : ∀ p ∈ points', inBounds p.1 p.2 = true := fun p hp => hb p (hperm.mem_iff.1 hp)
  have hbox := touchAll_isBox hb
  have hsame : touchAll none points' = touchAll none points := hbox.unique (touchAll_isBox hb') hperm
  refine ⟨touchAll none points, hdr ▸ execAll_touches hb s,
    hsame ▸ hdr ▸ execAll_touches hb' s, ?_⟩
  cases hd : touchAll none points with
  | none => rwa [hd] at hbox
  | some q =>
    rw [hd] at hbox
    obtain ⟨hcov, hcmin, hcmax, hrmin, hrmax⟩ := hbox
    exact ⟨hcov, hcmin, hcmax, hrmin, hrmax⟩

end Sys2Proof.Machine
end

section
/-! The rectangle covers what drawing changes (41_tracker.md R107), and O35. -/

namespace Sys2Proof.Machine

/-- Byte `i` of FB lies inside the dirty rectangle (R26). -/
def State.Dirty (s : State) (i : Nat) : Prop :=
  ∃ q, s.dr = some q ∧ q.covers (i % 128) (i / 128) = true

/-- A touch keeps dirty what is dirty (R108). -/
theorem State.touch_dirty {s : State} (hs : ∀ q, s.dr = some q → q.legal = true) {x y : Int}
    (hb : inBounds x y = true) {i : Nat} (h : s.Dirty i) : (s.touch x y).Dirty i := by
  obtain ⟨q, hq, hcov⟩ := h
  obtain ⟨q', hq', -, -, hkeep, -⟩ := touchRect_spec hs hb
  exact ⟨q', hq', hkeep q _ _ hq hcov⟩

/-- A touch makes its pixel's byte dirty (R101). -/
theorem State.touch_dirty_pixelIndex {s : State} (hs : ∀ q, s.dr = some q → q.legal = true)
    {x y : Int} (hb : inBounds x y = true) : (s.touch x y).Dirty (pixelIndex x y) := by
  obtain ⟨q', hq', -, hcov, -⟩ := touchRect_spec hs hb
  exact ⟨q', hq', by rwa [pixelIndex_mod hb, pixelIndex_div hb]⟩

theorem State.setPixel_dirty {s : State} (hs : s.Inv) (x y : Int) (l : Luma) {i : Nat}
    (h : s.Dirty i) : (s.setPixel x y l).Dirty i := by
  rcases s.setPixel_cases x y l with ⟨he, -⟩ | ⟨hb, -, he⟩
  · rwa [he]
  · rw [he]
    exact State.touch_dirty hs.2 hb h

/-- A byte that a pixel write changes is dirty after it (R107). -/
theorem State.setPixel_dirty_of_changed {s : State} (hs : s.Inv) {x y : Int} {l : Luma} {i : Nat}
    (h : (s.setPixel x y l).fb.read i ≠ s.fb.read i) : (s.setPixel x y l).Dirty i := by
  have hi : i = pixelIndex x y := by
    by_contra hne
    exact h (State.setPixel_read_of_ne hs.1 l hne)
  rcases s.setPixel_cases x y l with ⟨he, -⟩ | ⟨hb, -, he⟩
  · exact absurd (by rw [he]) h
  · rw [he, hi]
    exact State.touch_dirty_pixelIndex hs.2 hb

theorem State.paint_cons (s : State) (p : Pixel) (ps : List Pixel) :
    s.paint (p :: ps) = (s.setPixel p.x p.y p.luma).paint ps := rfl

theorem State.paint_inv {s : State} (hs : s.Inv) (pixels : List Pixel) : (s.paint pixels).Inv := by
  induction pixels generalizing s with
  | nil => exact hs
  | cons p ps ih => exact ih (State.setPixel_inv hs p.x p.y p.luma)

theorem State.paint_dirty {s : State} (hs : s.Inv) (pixels : List Pixel) {i : Nat} (h : s.Dirty i) :
    (s.paint pixels).Dirty i := by
  induction pixels generalizing s with
  | nil => exact h
  | cons p ps ih =>
    exact ih (State.setPixel_inv hs p.x p.y p.luma) (State.setPixel_dirty hs p.x p.y p.luma h)

/-- A byte that a drawing has changed is dirty after it: the first pixel changes it, or the rest does
(R107). -/
theorem State.paint_dirty_of_changed {s : State} (hs : s.Inv) {pixels : List Pixel} {i : Nat}
    (h : (s.paint pixels).fb.read i ≠ s.fb.read i) : (s.paint pixels).Dirty i := by
  induction pixels generalizing s with
  | nil => exact absurd rfl h
  | cons p ps ih =>
    rw [State.paint_cons] at h ⊢
    have hs' := State.setPixel_inv hs p.x p.y p.luma
    by_cases hp : (s.setPixel p.x p.y p.luma).fb.read i = s.fb.read i
    · exact ih hs' (hp ▸ h)
    · exact State.paint_dirty hs' ps (State.setPixel_dirty_of_changed hs hp)

/-- Settles O35: the first drawing makes the byte dirty, and the further one keeps it so. -/
theorem rectangleCoversEveryChangedByte : Obligations.RectangleCoversEveryChangedByte := by
  intro s t u first further i hs hfirst hfurther hchanged
  cases (execAll_draw first s).symm.trans hfirst
  cases (execAll_draw further _).symm.trans hfurther
  rw [State.paint_withResponses]
  exact State.paint_dirty (State.paint_inv hs first) further
    (State.paint_dirty_of_changed hs hchanged)

end Sys2Proof.Machine
end

section
/-! FLUSHC of the largest rectangle (41_tracker.md R109; 42_flush.md R128), and O43. -/

namespace Sys2Proof.Machine

/-- Rows of `w` elements, one after the other, are the elements in order. -/
theorem flatten_rows {α : Type} (f : Nat → α) (n w : Nat) :
    ((List.range n).map fun k => (List.range w).map fun j => f (k * w + j)).flatten =
      (List.range (n * w)).map f := by
  induction n with
  | zero => simp
  | succ n ih =>
    rw [List.range_succ, List.map_append, List.flatten_append, ih, Nat.succ_mul, List.range_add]
    simp

/-- The largest rectangle R25 allows: every byte column of every row. -/
def Rect.full : Rect := ⟨0, 127, 0, 63⟩

theorem Rect.full_legal : Rect.full.legal = true := by decide

theorem rectWindows_full :
    rectWindows Rect.full = (List.range 64).map fun k => ⟨k * 128, 128⟩ := by decide

/-- The payloads of the largest rectangle concatenate to the array (R109). -/
theorem flatten_slices_full (fb : Memory) :
    ((rectWindows Rect.full).map fb.slice).flatten = (List.range 8192).map fb.read := by
  rw [rectWindows_full, List.map_map]
  exact flatten_rows fb.read 64 128

/-- Settles O43: FLUSHC runs the plan of `Rect.full`, whose payloads are its slices. -/
theorem fullRectangleSendsEveryByte : Obligations.FullRectangleSendsEveryByte := by
  intro s hdr h
  have hn : (rectPlan Rect.full s.fb).length = 66 := rectPlan_length _ _
  refine ⟨_, (rectWindows Rect.full).map s.fb.slice,
    (exec_flushc_of_legal hdr Rect.full_legal).trans (flushOutcome_ok (hn ▸ h)), ?_,
    by simp [rectWindows_full], ?_, flatten_slices_full s.fb⟩
  · rw [List.drop_length_add_append, List.map_map]
    rfl
  · simp [rectWindows_full]

end Sys2Proof.Machine
end

section
/-! A step takes its own input off the host port and leaves the rest in order (42_flush.md R131), O15. -/

namespace Sys2Proof.Machine

/-- Settles O15: one case per shape of a step; with the tracker port empty the last shape is excluded. -/
theorem stepsConsumeTheScriptInOrder : Obligations.StepsConsumeTheScriptInOrder := by
  intro s t ht h
  rcases step_next_cases h with ⟨-, hi, rfl⟩ | ⟨rest, -, hi, rfl⟩ | ⟨_, rest, _, -, hi, -, hexec⟩ |
    ⟨_, rest, _, -, hi, -, rfl⟩ | ⟨_, _, hw, -⟩
  · exact ⟨by rw [hi, List.tail_nil], ht, rfl⟩
  · exact ⟨by simp [hi], ht, rfl⟩
  · obtain ⟨hin, htr, hsi⟩ := exec_keeps_ports hexec
    exact ⟨by simp [hin, hi], htr.trans ht, hsi⟩
  · exact ⟨by simp [hi], ht, rfl⟩
  · cases ht.symm.trans hw

end Sys2Proof.Machine
end

section
/-! The plans of the two flushes written out, and each flush under all answers ok and at its first err
(42_flush.md R121, R123, R124, R129): O37, O38, O44 and O45. -/

namespace Sys2Proof.Machine

/-- `flushOutcome_ok`, for the number of transactions in any spelling and the response word of R66. -/
theorem flushOutcome_of_willSucceed {s : State} {plan : List Request} {n : Nat} (hn : plan.length = n)
    (h : s.willSucceed n) (r : Bool) :
    flushOutcome s plan r = .next { s.advance n with
      dr := if r then none else s.dr
      trace := s.trace ++ allOk plan
      responses := s.responses ++ [0x0000000000] } := by
  subst hn
  exact flushOutcome_ok h

/-- `flushOutcome_err`, likewise. -/
theorem flushOutcome_of_willFailAt {s : State} {plan : List Request} {n k : Nat} (hn : plan.length = n)
    (h : s.willFailAt n k) (r : Bool) :
    flushOutcome s plan r = .next { s.advance (k + 1) with
      trace := s.trace ++ failedAt plan k
      responses := s.responses ++ [0x1000000000] } := by
  subst hn
  exact flushOutcome_err h

/-- The transport never returns from a call of the flush (R186, U16). -/
theorem flushOutcome_of_neverReturns {s : State} {plan : List Request}
    (h : s.neverReturns plan.length = true) (r : Bool) :
    flushOutcome s plan r = .fault .transportNeverReturns := if_pos h

/-- FLUSHF's transactions for any FULL_CHUNK_BYTES: two commands for the whole extent, then one payload
per slice (R123). -/
theorem fullPlan_eq (chunk : Nat) (fb : Memory) :
    fullPlan chunk fb =
      .cmd Config.opAddr [Config.devCol 0, Config.devCol 127, 0, 63] ::
        .cmd Config.opBeginWrite [] :: ((chunkWindows chunk).map fb.slice).map Request.data := by
  rw [List.map_map]
  rfl

/-- FLUSHF's transactions for this hardware's FULL_CHUNK_BYTES (R123, D18). -/
theorem fullPlan_whole (fb : Memory) :
    fullPlan Config.fullChunkBytes fb =
      [.cmd Config.opAddr [Config.devCol 0, Config.devCol 127, 0, 63], .cmd Config.opBeginWrite [],
        .data ((List.range 8192).map fb.read)] := by
  simp only [fullPlan_eq, chunkWindows_whole, List.map_cons, List.map_nil, Memory.slice, Nat.zero_add]

theorem fullPlan_whole_length (fb : Memory) : (fullPlan Config.fullChunkBytes fb).length = 3 :=
  congrArg List.length (fullPlan_whole fb)

/-- FLUSHF runs those transactions and then resets the tracker (R123, D13). -/
theorem exec_flushf (s : State) :
    exec .flushf s = flushOutcome s (fullPlan Config.fullChunkBytes s.fb) true := rfl

/-- FLUSHC's transactions for legal bounds: two commands for the rectangle, then one payload per row,
rows ascending (R124). -/
theorem rectPlan_of_legal {q : Rect} (hq : q.legal = true) (fb : Memory) :
    rectPlan q fb =
      .cmd Config.opAddr [Config.devCol q.cmin, Config.devCol q.cmax, q.rmin, q.rmax] ::
        .cmd Config.opBeginWrite [] ::
        (List.range (q.rmax.toNat - q.rmin.toNat + 1)).map fun k => .data
          ((List.range (q.cmax.toNat - q.cmin.toNat + 1)).map fun j =>
            fb.read ((q.rmin.toNat + k) * 128 + q.cmin.toNat + j)) := by
  obtain ⟨hc, -, hr, -⟩ := Rect.legal_iff.1 hq
  simp only [rectPlan, payloads, rectWindows, List.map_map, Nat.sub_add_comm hc, Nat.sub_add_comm hr]
  rfl

theorem rectPlan_length_of_legal {q : Rect} (hq : q.legal = true) (fb : Memory) :
    (rectPlan q fb).length = q.rmax.toNat - q.rmin.toNat + 3 := by
  simp [rectPlan_of_legal hq]

/-- Settles O37: FLUSHF's plan written out, all ok and at the first err. -/
theorem flushfSendsTheWholeFramebuffer : Obligations.FlushfSendsTheWholeFramebuffer := by
  refine ⟨by decide, fun s => ?_⟩
  rw [exec_flushf, fullPlan_whole]
  exact ⟨fun h => flushOutcome_of_willSucceed rfl h true, fun k h => flushOutcome_of_willFailAt rfl h true⟩

/-- Settles O38: FLUSHC on a clean tracker, and its plan written out, all ok and at the first err. -/
theorem flushcSendsTheRectangleRowByRow : Obligations.FlushcSendsTheRectangleRowByRow := by
  refine ⟨by decide, fun s => ⟨exec_flushc_of_clean, fun q hdr hq => ?_⟩⟩
  have hn := rectPlan_length_of_legal hq s.fb
  rw [exec_flushc_of_legal hdr hq]
  rw [rectPlan_of_legal hq] at hn ⊢
  exact ⟨fun h => flushOutcome_of_willSucceed hn h true, fun k h => flushOutcome_of_willFailAt hn h true⟩

/-- A FLUSHC whose transactions are all answered ok sends the rectangle's plan and forgets the rectangle
(R124, R125). -/
theorem exec_flushc_of_willSucceed {s : State} {q : Rect} (hdr : s.dr = some q) (hq : q.legal = true)
    (h : s.willSucceed (q.rmax.toNat - q.rmin.toNat + 3)) :
    ∃ t, exec .flushc s = .next t ∧ t.trace = s.trace ++ allOk (rectPlan q s.fb) ∧
      t.responses = s.responses ++ [0x0000000000] ∧ t.dr = none ∧ t.fb = s.fb :=
  ⟨_, (exec_flushc_of_legal hdr hq).trans
    (flushOutcome_of_willSucceed (rectPlan_length_of_legal hq s.fb) h true), rfl, rfl, rfl, rfl⟩

/-- A FLUSHC that ends at its first err leaves FB and DR as they were and has used the answers up to that
err, no more (R121, R146). -/
theorem exec_flushc_of_willFailAt {s : State} {q : Rect} {k : Nat} (hdr : s.dr = some q)
    (hq : q.legal = true) (h : s.willFailAt (q.rmax.toNat - q.rmin.toNat + 3) k) :
    ∃ t, exec .flushc s = .next t ∧ t.responses = s.responses ++ [0x1000000000] ∧ t.dr = s.dr ∧
      t.fb = s.fb ∧ ∀ n, t.willSucceed n ↔ (s.advance (k + 1)).willSucceed n :=
  ⟨_, (exec_flushc_of_legal hdr hq).trans
    (flushOutcome_of_willFailAt (rectPlan_length_of_legal hq s.fb) h true), rfl, rfl, rfl,
    fun _ => Iff.rfl⟩

/-- Settles O44: the first err leaves FB and DR alone, so the second FLUSHC runs the same plan. -/
theorem retryResendsTheWholeRegion : Obligations.RetryResendsTheWholeRegion := by
  intro s q k hdr hq n hfail hretry
  obtain ⟨t, ht, hbusy, htdr, htfb, hport⟩ := exec_flushc_of_willFailAt hdr hq hfail
  obtain ⟨u, hu, htrace, hok, hudr, hufb⟩ :=
    exec_flushc_of_willSucceed (htdr.trans hdr) hq ((hport n).2 hretry)
  rw [htfb] at htrace hufb
  exact ⟨t, u, ht, hbusy, hu, htrace, hok, hudr, hufb⟩

/-- Settles O45: the plan and the answers are those of `s` whatever DR holds, so both runs are stuck, both
succeed or both end at the same err. -/
theorem flushfDoesNotReadTheRectangle : Obligations.FlushfDoesNotReadTheRectangle := by
  intro s d
  rw [exec_flushf, exec_flushf]
  rcases flushOutcome_cases s (fullPlan Config.fullChunkBytes s.fb) true with
    ⟨hstuck, he⟩ | ⟨hok, he⟩ | ⟨k, herr, he⟩
  · rw [he, flushOutcome_of_neverReturns (s := { s with dr := d }) hstuck]
  · rw [he, flushOutcome_ok (s := { s with dr := d }) hok]
    exact ⟨rfl, rfl, rfl, rfl, rfl⟩
  · rw [he, flushOutcome_err (s := { s with dr := d }) herr]
    exact ⟨rfl, rfl, rfl, rfl, rfl⟩

end Sys2Proof.Machine
end

section
/-! When a flush ends, and what it then leaves (42_flush.md R121, R125, R127; 60_exceptions.md R141,
R146): O39 and O40. -/

namespace Sys2Proof.Machine

/-- FLUSHC stops on bounds that R25 does not allow (log 14). -/
theorem exec_flushc_of_illegal {s : State} {q : Rect} (hdr : s.dr = some q) (hq : ¬ q.legal = true) :
    exec .flushc s = .fault .illegalRectangle := by
  simp only [exec, execFlushc, hdr, if_neg hq]

/-- A flush that ends is FLUSHC on a clean tracker or the run of some transactions with TRKRST after. -/
theorem exec_flush_next_cases {i : Instr} {s t : State} (hi : i = .flushf ∨ i = .flushc)
    (h : exec i s = .next t) :
    (s.dr = none ∧ t = s.respond .ok 0 0) ∨ ∃ plan, flushOutcome s plan true = .next t := by
  rcases hi with rfl | rfl
  · exact .inr ⟨_, h⟩
  · cases hdr : s.dr with
    | none =>
      rw [exec_flushc_of_clean hdr] at h
      cases h
      exact .inl ⟨rfl, rfl⟩
    | some q =>
      by_cases hq : q.legal = true
      · exact .inr ⟨_, (exec_flushc_of_legal hdr hq).symm.trans h⟩
      · rw [exec_flushc_of_illegal hdr hq] at h
        cases h

/-- Settles O39: FLUSHC on a clean tracker ends OK with nothing sent; a run of transactions ends by
`flushOutcome_cases`. -/
theorem flushResetsOnlyAfterFullSuccess : Obligations.FlushResetsOnlyAfterFullSuccess := by
  intro s t i hi h
  rcases exec_flush_next_cases hi h with ⟨hdr, rfl⟩ | ⟨plan, hp⟩
  · exact ⟨rfl, .inl ⟨rfl, hdr, [], (List.append_nil _).symm⟩⟩
  · rcases flushOutcome_cases s plan true with ⟨-, he⟩ | ⟨-, he⟩ | ⟨k, ⟨-, hk, -⟩, he⟩
    · cases he.symm.trans hp
    · cases he.symm.trans hp
      exact ⟨rfl, .inl ⟨rfl, rfl, plan, rfl⟩⟩
    · cases he.symm.trans hp
      exact ⟨rfl, .inr ⟨rfl, rfl, plan, k, hk, rfl⟩⟩

/-- Settles O40: after a FLUSHC answered OK the tracker is clean by O39, since the other answer is
BUS_ERROR. -/
theorem cleanTrackerMakesFlushcFree : Obligations.CleanTrackerMakesFlushcFree := by
  refine ⟨fun s => exec_flushc_of_clean, fun s t h hr => exec_flushc_of_clean ?_⟩
  obtain ⟨-, ⟨-, hdr, -⟩ | ⟨hr', -⟩⟩ := flushResetsOnlyAfterFullSuccess s t .flushc (.inr rfl) h
  · exact hdr
  · have hw := List.append_cancel_left (hr.symm.trans hr')
    exact absurd hw (by decide)

end Sys2Proof.Machine
end

section
/-! The slices of FLUSHF for any FULL_CHUNK_BYTES (42_flush.md R123, D18), how many transactions a flush
issues and how many bytes it moves (R128): O42 and O41. -/

namespace Sys2Proof.Machine

theorem Memory.slice_eq_range' (m : Memory) (w : Window) :
    m.slice w = (List.range' w.start w.length).map m.read := by
  rw [Memory.slice, List.range'_eq_map_range, List.map_map]
  rfl

/-- The loop of R123 as an induction from the end of FB backwards: what holds of no slices at FB_BYTES,
and of a slice in front whenever it holds of the slices after it, holds of all the slices. -/
theorem chunkWindowsFrom_induction {chunk : Nat} (hc : 1 ≤ chunk) {P : Nat → List Window → Prop}
    (done : P 8192 [])
    (more : ∀ off ws, off < 8192 → P (off + min chunk (8192 - off)) ws →
      P off (⟨off, min chunk (8192 - off)⟩ :: ws))
    {fuel off : Nat} (hoff : off ≤ 8192) (hfuel : 8192 ≤ off + fuel) :
    P off (chunkWindowsFrom chunk fuel off) := by
  induction fuel generalizing off with
  | zero =>
    obtain rfl : off = 8192 := by omega
    exact done
  | succ fuel ih =>
    rw [chunkWindowsFrom, fbBytes_eq]
    split
    · next h => exact more off _ h (ih (by omega) (by omega))
    · next h =>
      obtain rfl : off = 8192 := by omega
      exact done

theorem chunkWindows_induction {chunk : Nat} (hc : 1 ≤ chunk) {P : Nat → List Window → Prop}
    (done : P 8192 [])
    (more : ∀ off ws, off < 8192 → P (off + min chunk (8192 - off)) ws →
      P off (⟨off, min chunk (8192 - off)⟩ :: ws)) :
    P 0 (chunkWindows chunk) :=
  chunkWindowsFrom_induction hc done more (Nat.zero_le _) (Nat.le_refl _)

/-- The slices, one after the other, are the array (R123 (c)). -/
theorem flatten_slices_chunkWindows {chunk : Nat} (hc : 1 ≤ chunk) (fb : Memory) :
    ((chunkWindows chunk).map fb.slice).flatten = (List.range 8192).map fb.read := by
  rw [List.range_eq_range']
  refine chunkWindows_induction hc
    (P := fun off ws => (ws.map fb.slice).flatten = (List.range' off (8192 - off)).map fb.read)
    rfl fun off ws hoff ih => ?_
  have hlen : 8192 - off = min chunk (8192 - off) + (8192 - (off + min chunk (8192 - off))) := by omega
  rw [List.map_cons, List.flatten_cons, ih, Memory.slice_eq_range', ← List.map_append,
    List.range'_append_1, ← hlen]

/-- No slice is empty or longer than FULL_CHUNK_BYTES (R123). -/
theorem chunkWindows_window_length {chunk : Nat} (hc : 1 ≤ chunk) :
    ∀ w ∈ chunkWindows chunk, 1 ≤ w.length ∧ w.length ≤ chunk := by
  refine chunkWindows_induction hc (P := fun _ ws => ∀ w ∈ ws, 1 ≤ w.length ∧ w.length ≤ chunk)
    (by simp) fun off ws hoff ih => List.forall_mem_cons.2 ⟨?_, ih⟩
  dsimp only
  omega

/-- Taking one chunk, or what is left if it is less, takes one off the number of chunks. -/
theorem chunks_of_rest {chunk n : Nat} (hc : 1 ≤ chunk) (hn : 0 < n) :
    (n - min chunk n + chunk - 1) / chunk + 1 = (n + chunk - 1) / chunk := by
  rw [← Nat.add_div_right _ hc]
  rcases Nat.le_total chunk n with h | h
  · congr 1
    omega
  · rw [Nat.min_eq_right h, Nat.div_eq_of_lt_le (k := 1) (by omega) (by omega),
      Nat.div_eq_of_lt_le (k := 1) (by omega) (by omega)]

/-- R128: FB_BYTES / FULL_CHUNK_BYTES slices, rounded up. -/
theorem chunkWindows_length {chunk : Nat} (hc : 1 ≤ chunk) :
    (chunkWindows chunk).length = (8192 + chunk - 1) / chunk := by
  refine chunkWindows_induction hc
    (P := fun off ws => ws.length = (8192 - off + chunk - 1) / chunk) ?_ fun off ws hoff ih => ?_
  · exact (Nat.div_eq_of_lt (by omega)).symm
  · rw [List.length_cons, ih, ← chunks_of_rest hc (Nat.sub_pos_of_lt hoff), Nat.sub_sub]

theorem fullPlan_length {chunk : Nat} (hc : 1 ≤ chunk) (fb : Memory) :
    (fullPlan chunk fb).length = 2 + (8192 + chunk - 1) / chunk := by
  rw [fullPlan_eq, List.length_cons, List.length_cons, List.length_map, List.length_map,
    chunkWindows_length hc, Nat.add_comm 2]

/-- Settles O42: the payloads are the slices of `chunkWindows`. -/
theorem chunksConcatenateToTheFramebuffer : Obligations.ChunksConcatenateToTheFramebuffer := by
  intro s chunk resets hc h
  refine ⟨_, (chunkWindows chunk).map s.fb.slice,
    flushOutcome_of_willSucceed (fullPlan_length hc s.fb) h resets, ?_,
    flatten_slices_chunkWindows hc s.fb, ?_, rfl⟩
  · rw [fullPlan_eq]
  · refine List.forall_mem_map.2 fun w hw => ?_
    have hlen := chunkWindows_window_length hc w hw
    rw [← List.length_pos_iff, Memory.slice_length]
    exact hlen

/-- The last transaction of a flush that ends at an err is the one answered err (R121). -/
theorem failedAt_getLast? {plan : List Request} {k : Nat} (hk : k < plan.length) :
    (failedAt plan k).getLast? = some ⟨plan[k], .err⟩ := by
  rw [failedAt, List.drop_eq_getElem_cons hk]
  exact List.getLast?_concat

/-- A flush whose transaction number `k` is the first answered err has issued `k + 1`, the last with
err (R128). -/
theorem flushOutcome_err_count {s : State} {plan : List Request} {n k : Nat} (hn : plan.length = n)
    (h : s.willFailAt n k) (r : Bool) :
    ∃ t, flushOutcome s plan r = .next t ∧ t.trace.length = s.trace.length + (k + 1) ∧
      t.trace.getLast?.map Transaction.answer = some .err := by
  obtain ⟨-, hk, -⟩ := id h
  rw [← hn] at hk
  refine ⟨_, flushOutcome_of_willFailAt hn h r, ?_, ?_⟩
  · rw [List.length_append, failedAt_length hk]
  · rw [List.getLast?_append, failedAt_getLast? hk]
    rfl

/-- What a successful flush of some slices moves as pixel data is the slices (R71). -/
theorem dataBytes_allOk_payloads (fb : Memory) (ws : List Window) :
    (allOk (payloads fb ws)).flatMap Transaction.dataBytes = (ws.map fb.slice).flatten := by
  rw [allOk, payloads, List.map_map, List.flatMap_map, ← List.flatMap_def]
  rfl

/-- FLUSHC moves the bytes of the rectangle: its width times its height (R128). -/
theorem rectPlan_dataBytes_length {q : Rect} (hq : q.legal = true) (fb : Memory) :
    ((allOk (rectPlan q fb)).flatMap Transaction.dataBytes).length =
      (q.cmax.toNat - q.cmin.toNat + 1) * (q.rmax.toNat - q.rmin.toNat + 1) := by
  obtain ⟨hc, -, hr, -⟩ := Rect.legal_iff.1 hq
  calc ((allOk (rectPlan q fb)).flatMap Transaction.dataBytes).length
    _ = ((allOk (payloads fb (rectWindows q))).flatMap Transaction.dataBytes).length := rfl
    _ = ((rectWindows q).map Window.length).sum := by
      rw [dataBytes_allOk_payloads, List.length_flatten, List.map_map]
      congr 2
      exact funext (Memory.slice_length fb)
    _ = (q.rmax.toNat + 1 - q.rmin.toNat) * (q.cmax.toNat + 1 - q.cmin.toNat) := by
      simp [rectWindows, Function.comp_def]
    _ = (q.cmax.toNat - q.cmin.toNat + 1) * (q.rmax.toNat - q.rmin.toNat + 1) := by
      rw [Nat.sub_add_comm hc, Nat.sub_add_comm hr, Nat.mul_comm]

/-- Settles O41: the counts of a successful and of a failing run, for the plan of each flush. -/
theorem flushTransactionCounts : Obligations.FlushTransactionCounts := by
  intro s
  refine ⟨fun chunk resets hc h => ?_, fun q hdr hq h => ?_,
    fun hdr => ⟨_, exec_flushc_of_clean hdr, rfl⟩,
    fun k h => flushOutcome_err_count (fullPlan_whole_length s.fb) h true, fun q k hdr hq h => ?_⟩
  · have hn := fullPlan_length hc s.fb
    exact ⟨_, flushOutcome_of_willSucceed hn h resets, by rw [List.length_append, allOk_length, hn]⟩
  · rw [Nat.add_comm 2] at h ⊢
    obtain ⟨t, ht, htrace, -⟩ := exec_flushc_of_willSucceed hdr hq h
    refine ⟨t, ht, ?_, ?_⟩
    · rw [htrace, List.length_append, allOk_length, rectPlan_length_of_legal hq]
    · rw [htrace, List.drop_left, rectPlan_dataBytes_length hq]
  · rw [Nat.add_comm 2] at h
    rw [exec_flushc_of_legal hdr hq]
    exact flushOutcome_err_count (rectPlan_length_of_legal hq s.fb) h true

end Sys2Proof.Machine
end

section
/-! Illegal host words and the idle block (30_encoding.md R65; 60_exceptions.md R142, R156): O9 to O11. -/

namespace Sys2Proof.Machine

/-- The operations of the reserved rows of the opcode table (R63, R65). -/
def reservedOperations : List Instr :=
  [.reserved0, .reservedA, .reservedB, .reservedC, .reservedD, .reservedE, .reservedF]

/-- Raising Illegal only adds the word ILLEGAL, without detail, to the responses (R142). -/
theorem State.raiseIllegal_eq (s : State) :
    s.raiseIllegal = { s with responses := s.responses ++ [0x2000000000] } :=
  congrArg (fun r => s.withResponses (s.responses ++ [r])) responseWord_illegal

/-- The reserved operations raise Illegal and do nothing else (R142). -/
theorem exec_of_mem_reservedOperations {i : Instr} (h : i ∈ reservedOperations) (s : State) :
    exec i s = .next s.raiseIllegal := by
  simp only [reservedOperations, List.mem_cons, List.not_mem_nil, or_false] at h
  rcases h with rfl | rfl | rfl | rfl | rfl | rfl | rfl <;> rfl

/-- Of the operations of the host port, those with opcode 0x0 or from 0x8 on are the reserved ones
(R63, R65). -/
theorem mem_reservedOperations_of_opcode {i : Instr} (hport : i.port = .host)
    (hop : i.opcode = 0x0 ∨ 0x8 ≤ i.opcode) : i ∈ reservedOperations := by
  cases i with
  | touch | trkrst => cases hport
  | reserved0 | reservedA | reservedB | reservedC | reservedD | reservedE | reservedF => decide
  | _ => exact absurd hop (by simp [Instr.opcode])

/-- The illegal range of opcodes, read off the top bits of a word (R61, R142). -/
theorem shiftRight_36_illegal_iff (w : Word40) :
    (w >>> 36 = 0x0 ∨ 0x8 ≤ w >>> 36) ↔ (fieldOp w = 0x0 ∨ 0x8 ≤ fieldOp w) := by
  refine or_congr (shiftRight_36_eq_iff w 0x0) ?_
  rw [shiftRight_36_eq, BitVec.le_def, BitVec.le_def,
    BitVec.toNat_setWidth_of_le (by decide : 4 ≤ 40)]
  rfl

/-- A host word with an illegal opcode is rejected or decodes to a reserved operation; either way the
step takes it off the port and raises Illegal (R65, R142). -/
theorem step_of_illegal_command {s : State} {w : Word40} {rest : List HostInput}
    (ht : s.trackerIn = none) (hi : s.inputs = .command w :: rest)
    (hop : fieldOp w = 0x0 ∨ 0x8 ≤ fieldOp w) :
    step s = .next (s.takeInput rest).raiseIllegal := by
  cases hd : decode .host w with
  | ok i =>
    obtain ⟨hport, hopcode, -⟩ := decode_eq_ok_iff.1 hd
    rw [hopcode] at hop
    rw [step_of_command ht hi hd]
    exact exec_of_mem_reservedOperations (mem_reservedOperations_of_opcode hport hop) _
  | error r => exact step_of_rejected_command ht hi hd

/-- Settles O9: the step raises Illegal from the state with the word taken off the host port. -/
theorem illegalHostWordsAreAnswered : Obligations.IllegalHostWordsAreAnswered := by
  intro s w rest ht hi hop
  rw [step_of_illegal_command ht hi ((shiftRight_36_illegal_iff w).1 hop), State.raiseIllegal_eq]
  rfl

/-- Settles O10: each of the seven raises Illegal. -/
theorem reservedOpcodesAnswerIllegal : Obligations.ReservedOpcodesAnswerIllegal := by
  intro s i h
  rw [exec_of_mem_reservedOperations h, State.raiseIllegal_eq]

/-- With both ports empty there is nothing to take up (R156). -/
theorem fetch_of_idle {s : State} (ht : s.trackerIn = none) (hi : s.inputs = []) :
    fetch s = .idle := by
  simp only [fetch, ht, hi]

/-- Settles O11: nothing is fetched. -/
theorem idleBlockHoldsItsState : Obligations.IdleBlockHoldsItsState := by
  intro s ht hi
  rw [step, fetch_of_idle ht hi]

end Sys2Proof.Machine
end

section
/-! The reset input, where the flushes stop, and that everything else ends (41_tracker.md R105;
70_reset_and_hazards.md R170, R186): O12, O46 and O19. -/

namespace Sys2Proof.Machine

/-- A flush whose calls all return ends (R186). -/
theorem flushOutcome_of_answered {s : State} {plan : List Request} (h : s.answered plan.length)
    (r : Bool) : flushOutcome s plan r = .next (s.flush plan r) :=
  if_neg (Bool.eq_false_iff.1 h)

/-- FLUSHC ends from every state that meets the invariant, if every call returns (R105, R186). -/
theorem exec_flushc_ends {s : State} (hinv : s.Inv) (h : ∀ n, s.answered n) :
    ∃ t, exec .flushc s = .next t := by
  cases hdr : s.dr with
  | none => exact ⟨_, exec_flushc_of_clean hdr⟩
  | some q =>
    have hq : q.legal = true := hinv.2 q hdr
    exact ⟨_, (exec_flushc_of_legal hdr hq).trans (flushOutcome_of_answered (h _) true)⟩

/-- Settles O19: of the host's operations only the two flushes can stop, and neither does here. -/
theorem everyHostOperationEnds : Obligations.EveryHostOperationEnds := by
  intro i s hport hinv h
  cases i with
  | touch | trkrst => cases hport
  | flushf => exact ⟨_, (exec_flushf s).trans (flushOutcome_of_answered (h _) true)⟩
  | flushc => exact exec_flushc_ends hinv h
  | _ => exact ⟨_, rfl⟩

/-- The reset input is taken off the host port before anything else happens (R170). -/
theorem fetch_of_reset {s : State} {rest : List HostInput} (ht : s.trackerIn = none)
    (hi : s.inputs = .reset :: rest) : fetch s = .reset (s.takeInput rest) := by
  simp only [fetch, ht, hi]

/-- The step that takes the reset input resets FB and DR (R170). -/
theorem step_of_reset {s : State} {rest : List HostInput} (ht : s.trackerIn = none)
    (hi : s.inputs = .reset :: rest) : step s = .next (s.takeInput rest).hardReset := by
  rw [step, fetch_of_reset ht hi]

/-- Settles O12: FB and DR are those of the reset state, and the input is off the port. -/
theorem resetInputInitialisesTheBlock : Obligations.ResetInputInitialisesTheBlock := by
  intro s rest ht hi
  obtain ⟨hfb, hdr, -⟩ := stateAfterReset
  exact ⟨_, step_of_reset ht hi, hfb, hdr, rfl⟩

/-- Settles O46: the two numbers of transactions are the lengths of the flushes' plans, and illegal
bounds give FLUSHC no plan. -/
theorem whereFlushesStop : Obligations.WhereFlushesStop := by
  refine fun s => ⟨fun h => ?_, fun q hdr hq h => ?_, fun q hdr hq => ?_⟩
  · rw [← fullPlan_whole_length s.fb] at h
    exact (exec_flushf s).trans (flushOutcome_of_neverReturns h true)
  · rw [← rectPlan_length_of_legal hq s.fb] at h
    exact (exec_flushc_of_legal hdr hq).trans (flushOutcome_of_neverReturns h true)
  · exact exec_flushc_of_illegal hdr (Bool.eq_false_iff.1 hq)

end Sys2Proof.Machine
end
